-- ==== Sys2Proof/Config.lean ====
section
/-! DEFINITION. The fixed parameters of the block (00_scope.md R8 to R11) and its open ones (R12, R16). -/

namespace Sys2Proof.Config

/-- `W_INT` of R8: the width of a VarInt value. -/
abbrev intWidth : Nat := 32

/-- `MAXB_INT` of R8: a VarInt has at most 5 bytes. -/
abbrev intMaxBytes : Nat := 5

/-- `W_LONG` of R9: the width of a VarLong value. -/
abbrev longWidth : Nat := 64

/-- `MAXB_LONG` of R9: a VarLong has at most 10 bytes. -/
abbrev longMaxBytes : Nat := 10

/-- The bytes of `ibuf` and of `obuf` (R11). -/
abbrev bufferBytes : Nat := 10

/-- The width of a packed request (30_encoding.md R58) and of a packed response (R59). -/
abbrev recordWidth : Nat := 280

/-- FREE VALUE (R16, 10_state.md R28, 93_implementation_defined.md I1): what the response wires carry where no rule
drives them. The n-th draw is one whole record's worth of bits; a response takes from it the fields that R27 does not
define for it. No body: nothing can be proved of a draw. Log entry 5. -/
opaque freeRecord : Nat → BitVec recordWidth

/-- `LATENCY` (R12, 70_reset_and_hazards.md R122): the time from request to response, an open parameter.
"No rule depends on it", and nothing in the model reads it. Log entry 12. -/
opaque latency : Nat

end Sys2Proof.Config
end

