-- ==== Sys2Proof/Word.lean ====
section
/-! DEFINITION. Words and the two records of the transaction interface (10_state.md R24, R25; 30_encoding.md R58, R59). -/

namespace Sys2Proof

/-- A byte; bit 7 is its most significant bit (R13). -/
abbrev Byte := BitVec 8

/-- A 64-bit operand or result field (R11). -/
abbrev Word := BitVec 64

/-- A request as the port carries it, 280 bits (R58). -/
abbrev RequestWord := BitVec Config.recordWidth

/-- A response as the port carries it, 280 bits (R59). -/
abbrev ResponseWord := BitVec Config.recordWidth

/-- The request record of R24, with the reserved bit 3 of R58. -/
structure Request where
  /-- selects the operation (R60) -/
  op : BitVec 3
  /-- request bit 3: "write 0; the block ignores it" (R58) -/
  reserved : BitVec 1
  /-- the number of valid bytes at the start of `ibuf` (R31) -/
  ilen : BitVec 4
  a : Word
  b : Word
  c : Word
  /-- `ibuf[0..9]`, `ibuf[0]` first on the wire -/
  ibuf : List Byte
  deriving DecidableEq, Repr

/-- The error kinds of 60_exceptions.md R99. -/
inductive ErrorKind where
  /-- OverflowError (R100): an encoder needed more than MAXB bytes. Unreachable (R67, R80). -/
  | overflow
  /-- TruncatedInputError (R101): a decoder needed a byte that is not available. -/
  | truncated
  /-- ILLEGAL_OP (R102): op 6 or 7. -/
  | illegalOp
  deriving DecidableEq, Repr

/-- The `status` field of a response (R62). -/
inductive Status where
  | ok
  | error (kind : ErrorKind)
  deriving DecidableEq, Repr

/-- The response record of R25. The two reserved bits of R59 are always 0 and so are no field. -/
structure Response where
  status : Status
  r0 : Word
  r1 : Word
  r2 : Word
  /-- `obuf[0..9]`, `obuf[0]` first on the wire -/
  obuf : List Byte
  cnt : BitVec 4
  deriving DecidableEq, Repr

/-- What the rules define of one response (R27): `none` marks a field left unspecified (R28), and `bytes` is the defined
beginning of `obuf`, the rest of which is unspecified (R36). -/
structure Answer where
  status : Status
  r0 : Option Word
  r1 : Option Word
  r2 : Option Word
  bytes : List Byte
  cnt : Option (BitVec 4)
  deriving DecidableEq, Repr

end Sys2Proof
end

