-- ==== Sys2Proof/Syntax.lean ====
section
/-! DEFINITION. The six operations (00_scope.md R4; opcode_table.json), each with the request fields the table gives it. -/

namespace Sys2Proof

/-- One constructor per row of opcode_table.json. A constructor carries the whole of each field its operation reads some
bits of (R24): which bits count is the meaning's business (R27, R40, R91), not the syntax's. Log entry 9. -/
inductive Instr where
  /-- op 0 (R65): the value is `a[31:0]` -/
  | varintEnc (a : Word)
  /-- op 1 (R70) -/
  | varintDec (ibuf : List Byte) (ilen : BitVec 4)
  /-- op 2 (R78): the value is `a` -/
  | varlongEnc (a : Word)
  /-- op 3 (R82) -/
  | varlongDec (ibuf : List Byte) (ilen : BitVec 4)
  /-- op 4 (R90): `x = a`, `y = b`, `z = c` -/
  | posEnc (a b c : Word)
  /-- op 5 (R92): the word is `a` -/
  | posDec (a : Word)
  deriving DecidableEq, Repr

end Sys2Proof
end

