-- ==== Sys2Proof/WellFormed.lean ====
section
/-! DEFINITION. Which terms of the syntax are instructions: an input buffer has exactly the 10 bytes of R24. -/

namespace Sys2Proof

/-- `ibuf` is a record field of 10 bytes (R11, R24). -/
def bufferOk (ibuf : List Byte) : Bool := ibuf.length == Config.bufferBytes

/-- Every other operand is a bit vector of its field's width and needs no check. -/
def Instr.wellFormed : Instr → Bool
  | .varintEnc _ => true
  | .varintDec ibuf _ => bufferOk ibuf
  | .varlongEnc _ => true
  | .varlongDec ibuf _ => bufferOk ibuf
  | .posEnc _ _ _ => true
  | .posDec _ => true

end Sys2Proof
end

