-- ==== Sys2Proof/Decode.lean ====
section
/-! DEFINITION. The packed request (30_encoding.md R58), the operation select (R60, R61, R63), and the encoder written
from the same tables. -/

namespace Sys2Proof

/-- `w[lo+n-1 : lo]` (R13). -/
def fieldAt (w : RequestWord) (lo n : Nat) : BitVec n := w.extractLsb' lo n

/-- The ten bytes at bits 279:200, byte k at 207+8k : 200+8k (R58, R59). -/
def bufferAt (w : RequestWord) : List Byte :=
  (List.range Config.bufferBytes).map fun k => fieldAt w (200 + 8 * k) 8

/-- The fields of a packed request, by the table of R58. -/
def unpackRequest (w : RequestWord) : Request where
  op := fieldAt w 0 3
  reserved := fieldAt w 3 1
  ilen := fieldAt w 4 4
  a := fieldAt w 8 64
  b := fieldAt w 72 64
  c := fieldAt w 136 64
  ibuf := bufferAt w

/-- Why a request is no instruction. -/
inductive Reject where
  /-- op 6 or 7 (R61): the block answers ILLEGAL_OP (R102) -/
  | reservedOp (op : BitVec 3)
  deriving DecidableEq, Repr

/-- Operation select (R60): `op` alone decides (R63); the reserved bit is not looked at (R58). -/
def decodeRequest (q : Request) : Except Reject Instr :=
  match q.op.toNat with
  | 0 => .ok (.varintEnc q.a)
  | 1 => .ok (.varintDec q.ibuf q.ilen)
  | 2 => .ok (.varlongEnc q.a)
  | 3 => .ok (.varlongDec q.ibuf q.ilen)
  | 4 => .ok (.posEnc q.a q.b q.c)
  | 5 => .ok (.posDec q.a)
  | _ => .error (.reservedOp q.op)

/-- The decoder: total on every 280-bit request. -/
def decode (w : RequestWord) : Except Reject Instr := decodeRequest (unpackRequest w)

/-- `v` at bits lo+n-1 : lo of a record whose other bits are 0. -/
def placeAt {n : Nat} (lo : Nat) (v : BitVec n) : RequestWord := v.setWidth Config.recordWidth <<< lo

/-- Bytes laid out upward from bit `lo`, the first lowest (R58, R59). -/
def placeBytes : Nat → List Byte → RequestWord
  | _, [] => 0
  | lo, b :: bs => placeAt lo b ||| placeBytes (lo + 8) bs

/-- The packed request of a record, by the table of R58. -/
def packRequest (q : Request) : RequestWord :=
  placeAt 0 q.op ||| placeAt 3 q.reserved ||| placeAt 4 q.ilen ||| placeAt 8 q.a ||| placeAt 72 q.b |||
    placeAt 136 q.c ||| placeBytes 200 q.ibuf

/-- A request with every field omitted: "An omitted field is 0. An omitted `ibuf` byte is `0x00`" (R64). -/
def emptyRequest (op : BitVec 3) : Request where
  op := op
  reserved := 0
  ilen := 0
  a := 0
  b := 0
  c := 0
  ibuf := List.replicate Config.bufferBytes 0

/-- The op code of R60. -/
def opCode : Instr → BitVec 3
  | .varintEnc _ => 0b000
  | .varintDec _ _ => 0b001
  | .varlongEnc _ => 0b010
  | .varlongDec _ _ => 0b011
  | .posEnc _ _ _ => 0b100
  | .posDec _ => 0b101

/-- The request that carries an instruction; the fields the operation does not read are omitted (R64), and the reserved
bit is written 0 (R58). -/
def requestOf (i : Instr) : Request :=
  let q := emptyRequest (opCode i)
  match i with
  | .varintEnc a => { q with a := a }
  | .varintDec ibuf ilen => { q with ibuf := ibuf, ilen := ilen }
  | .varlongEnc a => { q with a := a }
  | .varlongDec ibuf ilen => { q with ibuf := ibuf, ilen := ilen }
  | .posEnc a b c => { q with a := a, b := b, c := c }
  | .posDec a => { q with a := a }

/-- The encoder. -/
def encode (i : Instr) : RequestWord := packRequest (requestOf i)

/-- The bits of the request that hold `op` and the fields an instruction carries (the table's `source_fields`, whole
fields): `op` 2:0, `ilen` 7:4, `a` 71:8, `b` 135:72, `c` 199:136, `ibuf` 279:200. -/
def operandMask : Instr → RequestWord
  | .varintEnc _ => placeAt 0 (7 : BitVec 3) ||| placeAt 8 (BitVec.allOnes 64)
  | .varintDec _ _ => placeAt 0 (7 : BitVec 3) ||| placeAt 4 (15 : BitVec 4) ||| placeAt 200 (BitVec.allOnes 80)
  | .varlongEnc _ => placeAt 0 (7 : BitVec 3) ||| placeAt 8 (BitVec.allOnes 64)
  | .varlongDec _ _ => placeAt 0 (7 : BitVec 3) ||| placeAt 4 (15 : BitVec 4) ||| placeAt 200 (BitVec.allOnes 80)
  | .posEnc _ _ _ => placeAt 0 (7 : BitVec 3) ||| placeAt 8 (BitVec.allOnes 192)
  | .posDec _ => placeAt 0 (7 : BitVec 3) ||| placeAt 8 (BitVec.allOnes 64)

/-- 2^280, as a product of two powers small enough for Lean's elaborator to evaluate. -/
def recordCount : Nat := 2 ^ 140 * 2 ^ 140

theorem recordCount_eq : recordCount = 2 ^ Config.recordWidth := by
  rw [recordCount, show Config.recordWidth = 140 + 140 from rfl, Nat.pow_add]

/-- `w % 2^nbits`, the power as a product of two for the same reason. -/
def lowBits (nbits w : Nat) : Nat := w % (2 ^ (nbits / 2) * 2 ^ (nbits - nbits / 2))

theorem lowBits_eq (nbits w : Nat) : lowBits nbits w = w % 2 ^ nbits := by
  rw [lowBits, ← Nat.pow_add, Nat.add_sub_of_le (Nat.div_le_self _ _)]

theorem lowBits_lt (nbits w : Nat) : lowBits nbits w % recordCount < 2 ^ Config.recordWidth := by
  rw [← recordCount_eq]
  exact Nat.mod_lt _ (by rw [recordCount_eq]; exact Nat.two_pow_pos _)

/-- The request whose low `nbits` bits are those of `w`, numbered as opcode_table.json numbers them, which is how R58
numbers a request's; every bit above is 0. Log entry 16. -/
def requestOfTableWord (nbits w : Nat) : RequestWord :=
  BitVec.ofNatLT (lowBits nbits w % recordCount) (lowBits_lt nbits w)

/-- The instruction the decoder reads from a table word. -/
def decodeTableWord (nbits w : Nat) : Option Instr :=
  match decode (requestOfTableWord nbits w) with
  | .ok i => some i
  | .error _ => none

end Sys2Proof
end

