-- ==== Sys2Proof/Machine/State.lean ====
section
/-! DEFINITION. The state of the transaction interface (R115, R121), the host's program index (R19) and the draw counter.
The block itself keeps no state at all (10_state.md R17 to R22), no memory (R30), no trap state (R109) and no mode (R110). -/

namespace Sys2Proof.Machine

/-- Nothing stops this block: "Errors are results, not traps … Nothing halts, aborts or resets" (60_exceptions.md R104).
So there is no reason to fault, and no constructor. Log entry 19. -/
inductive Fault where
  deriving DecidableEq, Repr

/-- Why the model has no meaning for an instruction. -/
inductive Refusal where
  /-- Raised only by an arm of `exec` whose instruction has no meaning yet; no arm is left that raises it. Safe: the
  machine stops where the hardware goes on. -/
  | notModelled (mnemonic : String)
  deriving DecidableEq, Repr

/-- What exists between two steps. Plain data. -/
structure State where
  /-- The requests accepted and not yet answered, oldest first, as the port carried them (R58, R115, R121). -/
  requests : List RequestWord
  /-- The responses given and not yet collected by the host, oldest first (R59, R115, R121). -/
  responses : List Response
  /-- "The position in such a program is the index of the next request. The host holds that index and advances it by one
  per response, with no wrap-around" (R19). DESIGN CHOICE, log entry 7: it advances when a response is given, collected or
  not. -/
  hostIndex : Nat
  /-- The model's own: how many free records have been drawn (R16, R28). Log entry 5. -/
  draws : Nat
  deriving DecidableEq, Repr

/-- After reset "no request is in flight and no response is pending" (R115), and no architectural state exists to be reset
(R29, R114). The host's index starts at the first request and the draw counter at 0 (DESIGN CHOICE: log entries 7 and 5). -/
def State.reset : State where
  requests := []
  responses := []
  hostIndex := 0
  draws := 0

end Sys2Proof.Machine
end

