-- ==== Sys2Proof/Machine/Flags.lean ====
section
/-! DEFINITION. The block has no flags or condition codes (10_state.md R20). What it computes in their place: the
continuation flag of a data byte (30_encoding.md R47) and the status code of a response (R62). -/

namespace Sys2Proof.Machine

/-- C, bit 7 of an encoded byte: "more bytes follow" (R38, R47). -/
def continues (b : Byte) : Bool := b.getLsbD 7

/-- P, bits 6:0 of an encoded byte (R38, R47). -/
def payload (b : Byte) : BitVec 7 := b.extractLsb' 0 7

/-- The byte `C ++ P` (R47, and the `0b1 ++ chunk` / `0b0 ++ chunk` of R65). -/
def flaggedByte (more : Bool) (chunk : BitVec 7) : Byte := BitVec.ofBool more ++ chunk

/-- The 2-bit code of a status (R62). -/
def statusCode : Status → BitVec 2
  | .ok => 0b00
  | .error .overflow => 0b01
  | .error .truncated => 0b10
  | .error .illegalOp => 0b11

end Sys2Proof.Machine
end

