-- ==== Sys2Proof/Machine/Operands.lean ====
section
/-! DEFINITION. How an operation reads the fields of its request (10_state.md R24, R27; 20_memory.md R31, R32, R40). -/

namespace Sys2Proof.Machine

/-- VARINT_ENC's operand: `a[31:0]`; `a[63:32]` is ignored (R40, R65). -/
def intOperand (a : Word) : BitVec Config.intWidth := a.extractLsb' 0 Config.intWidth

/-- `ibuf[i]` "is available exactly when i < unsigned(ilen)" (R31). -/
def available (ilen : BitVec 4) (i : Nat) : Bool := i < ilen.toNat

/-- `MemRead(i, 1)` (R15): the byte `ibuf[i]`. A byte that is not listed reads as 0x00, as R64 fills it; a well-formed
instruction lists all ten. Log entry 10. -/
def memRead (ibuf : List Byte) (i : Nat) : Byte := ibuf.getD i 0

/-- The low chunk `u[6:0]` of what an encoder still has to emit (R65, R78). -/
def lowChunk {w : Nat} (u : BitVec w) : BitVec 7 := u.setWidth 7

/-- A decoder's `zext(byte[6:0]) << (7*i)`, inside the accumulator's width (R70, R71, R82, R83). -/
def placedChunk {w : Nat} (b : Byte) (i : Nat) : BitVec w := (payload b).setWidth w <<< (7 * i)

end Sys2Proof.Machine
end

