-- ==== Sys2Proof/Machine/Ops.lean ====
section
/-! DEFINITION. The shared operations: the encode and decode loops, giving a response, answering an error (the one thing
this block has in place of taking an exception, 60_exceptions.md R104, R109), and taking the next request. -/

namespace Sys2Proof.Machine

/-- The loop of R65 and R78 at any width. `room` is MAXB - n, the bytes still allowed: at 0 a further byte "would exceed the
maximum" and the operation ends with OverflowError and no output (R103). The shift is logical (R66, R79). -/
def encodeChunks {w : Nat} : Nat → BitVec w → Except ErrorKind (List Byte)
  | 0, _ => .error .overflow
  | room + 1, u =>
    if u >>> 7 = 0 then .ok [flaggedByte false (lowChunk u)]
    else
      match encodeChunks room (u >>> 7) with
      | .ok bytes => .ok (flaggedByte true (lowChunk u) :: bytes)
      | .error e => .error e

/-- The loop of R70 and R82 at any width: `room` is MAXB - i, `i` the index of the next byte, `acc` the accumulator. It
answers the result and the number of bytes read. With no byte left to read the flag of the last one was still set, and the
result is the negation modulo 2^w (R73, R85). -/
def decodeChunks {w : Nat} (ibuf : List Byte) (ilen : BitVec 4) : Nat → Nat → BitVec w → Except ErrorKind (BitVec w × Nat)
  | 0, i, acc => .ok (-acc, i)
  | room + 1, i, acc =>
    if available ilen i then
      if continues (memRead ibuf i) then decodeChunks ibuf ilen room (i + 1) (acc ||| placedChunk (memRead ibuf i) i)
      else .ok (acc ||| placedChunk (memRead ibuf i) i, i + 1)
    else .error .truncated

/-- A response of which only the status is defined: every answer below adds the fields R27 defines for it. -/
def bareAnswer (status : Status) : Answer where
  status := status
  r0 := none
  r1 := none
  r2 := none
  bytes := []
  cnt := none

/-- An error's response: `status`, `cnt = 0`, and nothing else defined (R103). -/
def errorAnswer (e : ErrorKind) : Answer := { bareAnswer (.error e) with cnt := some 0 }

/-- What an encoder answers (R35, R69, R81). -/
def encoderAnswer : Except ErrorKind (List Byte) → Answer
  | .ok bytes => { bareAnswer .ok with bytes := bytes, cnt := some (BitVec.ofNat 4 bytes.length) }
  | .error e => errorAnswer e

/-- What a decoder answers: `r0` is the result sign-extended to 64 bits, `cnt` the bytes read (R75, R76, R87). -/
def decoderAnswer {w : Nat} : Except ErrorKind (BitVec w × Nat) → Answer
  | .ok (v, n) => { bareAnswer .ok with r0 := some (v.signExtend 64), cnt := some (BitVec.ofNat 4 n) }
  | .error e => errorAnswer e

/-- The response the wires carry: the defined fields, and the n-th draw everywhere else (R16, R28, R36). -/
def driveResponse (n : Nat) (a : Answer) : Response where
  status := a.status
  r0 := a.r0.getD (fieldAt (Config.freeRecord n) 8 64)
  r1 := a.r1.getD (fieldAt (Config.freeRecord n) 72 64)
  r2 := a.r2.getD (fieldAt (Config.freeRecord n) 136 64)
  obuf := a.bytes ++ (bufferAt (Config.freeRecord n)).drop a.bytes.length
  cnt := a.cnt.getD (fieldAt (Config.freeRecord n) 4 4)

/-- Give a response: it joins the pending ones behind those given before (R121), the host's index advances by one (R19),
and one record is drawn. Nothing else exists that could change (R17). R19 says "by one per response" and not at which
moment. DESIGN CHOICE, log entry 7: the index advances here, when the block gives the response, and not when the host
collects it. -/
def State.respond (a : Answer) (s : State) : State :=
  { s with
    responses := s.responses ++ [driveResponse s.draws a]
    hostIndex := s.hostIndex + 1
    draws := s.draws + 1 }

/-- An operation that ends with an error answers it as a status and the machine goes on (R104). -/
def answerError (e : ErrorKind) (s : State) : Host.Outcome State Fault Refusal := .next (s.respond (errorAnswer e))

/-- Take the oldest request (R121), if there is one. -/
def State.takeRequest (s : State) : Option (RequestWord × State) :=
  match s.requests with
  | [] => none
  | w :: rest => some (w, { s with requests := rest })

/-- The packed response, by the table of R59; bits 3:2 are driven 0. -/
def packResponse (r : Response) : ResponseWord :=
  placeAt 0 (statusCode r.status) ||| placeAt 4 r.cnt ||| placeAt 8 r.r0 ||| placeAt 72 r.r1 ||| placeAt 136 r.r2 |||
    placeBytes 200 r.obuf

end Sys2Proof.Machine
end

