-- ==== Sys2Proof/Machine/Position.lean ====
section
/-! DEFINITION. POS_ENC and POS_DEC (42_position.md; the word's layout: 30_encoding.md R56). -/

namespace Sys2Proof.Machine

/-- The word of R90: coordinates outside their range are masked, not refused (R91). -/
def positionWord (x y z : Word) : Word :=
  ((x &&& 0x3FFFFFF) <<< 38) ||| ((z &&& 0x3FFFFFF) <<< 12) ||| (y &&& 0xFFF)

/-- x of R92: an arithmetic shift, so the sign of bit 63 is kept (R93). -/
def positionX (word : Word) : Word := word.sshiftRight 38

/-- y of R92: masked, not sign-extended (R95). -/
def positionY (word : Word) : Word := word &&& 0xFFF

/-- z of R92: "the mask drops every bit the shift brings in", so not sign-extended (R94). -/
def positionZ (word : Word) : Word := word.sshiftRight 12 &&& 0x3FFFFFF

/-- POS_ENC (R90, R91, R98). -/
def execPosEnc (a b c : Word) (s : State) : Host.Outcome State Fault Refusal :=
  .next (s.respond { bareAnswer .ok with r0 := some (positionWord a b c) })

/-- POS_DEC (R92 to R96, R98). -/
def execPosDec (a : Word) (s : State) : Host.Outcome State Fault Refusal :=
  .next (s.respond
    { bareAnswer .ok with r0 := some (positionX a), r1 := some (positionY a), r2 := some (positionZ a) })

end Sys2Proof.Machine
end

