-- ==== Sys2Proof/Machine/Varint.lean ====
section
/-! DEFINITION. VARINT_ENC and VARINT_DEC (40_varint.md). -/

namespace Sys2Proof.Machine

/-- VARINT_ENC (R65 to R69). -/
def execVarintEnc (a : Word) (s : State) : Host.Outcome State Fault Refusal :=
  .next (s.respond (encoderAnswer (encodeChunks Config.intMaxBytes (intOperand a))))

/-- VARINT_DEC (R70 to R76): a 32-bit accumulator, at most 5 bytes. -/
def execVarintDec (ibuf : List Byte) (ilen : BitVec 4) (s : State) : Host.Outcome State Fault Refusal :=
  .next (s.respond (decoderAnswer (decodeChunks ibuf ilen Config.intMaxBytes 0 (0 : BitVec Config.intWidth))))

end Sys2Proof.Machine
end

