-- ==== Sys2Proof/Machine/Varlong.lean ====
section
/-! DEFINITION. VARLONG_ENC and VARLONG_DEC (41_varlong.md). -/

namespace Sys2Proof.Machine

/-- VARLONG_ENC (R78 to R81). -/
def execVarlongEnc (a : Word) (s : State) : Host.Outcome State Fault Refusal :=
  .next (s.respond (encoderAnswer (encodeChunks Config.longMaxBytes a)))

/-- VARLONG_DEC (R82 to R87): a 64-bit accumulator, at most 10 bytes. -/
def execVarlongDec (ibuf : List Byte) (ilen : BitVec 4) (s : State) : Host.Outcome State Fault Refusal :=
  .next (s.respond (decoderAnswer (decodeChunks ibuf ilen Config.longMaxBytes 0 (0 : BitVec Config.longWidth))))

end Sys2Proof.Machine
end

