-- ==== Sys2Proof/Machine/Dispatch.lean ====
section
/-! DEFINITION. One arm per operation (30_encoding.md R60). -/

namespace Sys2Proof.Machine

def exec (i : Instr) (s : State) : Host.Outcome State Fault Refusal :=
  match i with
  | .varintEnc a => Sys2Proof.Machine.execVarintEnc a s
  | .varintDec ibuf ilen => Sys2Proof.Machine.execVarintDec ibuf ilen s
  | .varlongEnc a => Sys2Proof.Machine.execVarlongEnc a s
  | .varlongDec ibuf ilen => Sys2Proof.Machine.execVarlongDec ibuf ilen s
  | .posEnc a b c => Sys2Proof.Machine.execPosEnc a b c s
  | .posDec a => Sys2Proof.Machine.execPosDec a s

end Sys2Proof.Machine
end

