-- ==== Sys2Proof/Machine/Reserved.lean ====
section
/-! DEFINITION. The reserved op codes 6 and 7 (30_encoding.md R61; 60_exceptions.md R102). -/

namespace Sys2Proof.Machine

/-- What the block does with a request the decoder rejects: the response has ILLEGAL_OP and `cnt = 0` (R61, R102). The op
check comes "before any operation starts" (R107), so no other field of the request is looked at. -/
def execRejected (why : Reject) (s : State) : Host.Outcome State Fault Refusal :=
  match why with
  | .reservedOp _ => answerError .illegalOp s

end Sys2Proof.Machine
end

