-- ==== Sys2Proof/Machine/Step.lean ====
section
/-! DEFINITION. One step: the oldest request in flight is taken and answered (R26, R121). -/

namespace Sys2Proof.Machine

/-- One step. With no request in flight nothing happens: "Nothing happens except in answer to a request" (R108; log entry
2). Otherwise the oldest request is taken, decoded and answered; a reserved op is answered ILLEGAL_OP (R102). -/
def step (s : State) : Host.Outcome State Fault Refusal :=
  match s.takeRequest with
  | none => .next s
  | some (w, t) =>
    match decode w with
    | .ok i => exec i t
    | .error why => execRejected why t

/-- The table word as the request the next step takes. The block fetches no code (R46): this stands for the host issuing
that request (log entry 8). -/
def State.withFetchWord (s : State) (nbits w : Nat) : State :=
  { s with requests := requestOfTableWord nbits w :: s.requests.tail }

end Sys2Proof.Machine
end

