-- ==== Sys2Proof/Machine/Port.lean ====
section
/-! DEFINITION. What the outside does to the block between steps: issuing, collecting, reset (R115, R117, R121) and the
host's duties (R118, R119). -/

namespace Sys2Proof.Machine

/-- The host issues a request: it is accepted behind those already in flight (R121). Any request may follow any other, with
no spacing (R120). -/
def State.accept (w : RequestWord) (s : State) : State := { s with requests := s.requests ++ [w] }

/-- The host collects the oldest pending response, if there is one (R121). The host's index does not move here: it moved when
the response was given (DESIGN CHOICE, log entry 7). -/
def State.collect (s : State) : Option (Response × State) :=
  match s.responses with
  | [] => none
  | r :: rest => some (r, { s with responses := rest })

/-- Reset of the block at any time (R115): nothing stays in flight or pending, so "a response to a request accepted before
reset is lost". The host's index and the draw counter are not the block's and stay; so a response that was given and is lost
here remains counted in the index (DESIGN CHOICE, log entry 7). -/
def State.resetPort (s : State) : State := { s with requests := [], responses := [] }

/-- The bytes a host takes after an encode: exactly `obuf[0..cnt-1]`; after an error it uses only `status` (R119). -/
def takenBytes (r : Response) : List Byte :=
  match r.status with
  | .ok => r.obuf.take r.cnt.toNat
  | .error _ => []

/-- `ibuf` for a decode at position `p` of a stream: the bytes from there on "placed at `ibuf[0]` onward, in wire order"
(R41, R118), at most ten, the rest of the field 0x00 (R64). -/
def streamBuffer (stream : List Byte) (p : Nat) : List Byte :=
  let valid := (stream.drop p).take Config.bufferBytes
  valid ++ List.replicate (Config.bufferBytes - valid.length) 0

/-- `ilen` for that decode: "the number of valid bytes" (R118). -/
def streamLength (stream : List Byte) (p : Nat) : BitVec 4 :=
  BitVec.ofNat 4 (min (stream.length - p) Config.bufferBytes)

/-- "After an OK response, it moves its position in the stream forward by `cnt` bytes" (R75, R118). -/
def streamAdvance (p : Nat) (r : Response) : Nat :=
  match r.status with
  | .ok => p + r.cnt.toNat
  | .error _ => p

end Sys2Proof.Machine
end

