-- ==== Sys2Proof/Machine/Transaction.lean ====
section
/-! DEFINITION. The written form of requests and responses (30_encoding.md R64), as data. -/

namespace Sys2Proof.Machine

/-- A request as R64 writes it, `MNEMONIC field=value …`. `none` is an omitted field. -/
inductive Transaction where
  | varintEnc (a : Option Int)
  | varintDec (ibuf : List Byte) (ilen : Option Nat)
  | varlongEnc (a : Option Int)
  | varlongDec (ibuf : List Byte) (ilen : Option Nat)
  | posEnc (a b c : Option Int)
  | posDec (a : Option Int)
  | rsvd6
  | rsvd7
  deriving DecidableEq, Repr

/-- "An omitted `ilen` equals the number of bytes listed, which must be 10 or fewer"; a written `ilen` fits its 4 bits. -/
def buffersOk (ibuf : List Byte) (ilen : Option Nat) : Bool :=
  decide (ibuf.length ≤ Config.bufferBytes) && decide (ilen.getD 0 < 16)

/-- Which written forms are transactions. -/
def Transaction.wellFormed : Transaction → Bool
  | .varintEnc _ => true
  | .varintDec ibuf ilen => buffersOk ibuf ilen
  | .varlongEnc _ => true
  | .varlongDec ibuf ilen => buffersOk ibuf ilen
  | .posEnc _ _ _ => true
  | .posDec _ => true
  | .rsvd6 => true
  | .rsvd7 => true

/-- "It is stored in its field modulo 2^64. An omitted field is 0." -/
def writtenWord (v : Option Int) : Word := BitVec.ofInt 64 (v.getD 0)

/-- "An omitted `ibuf` byte is `0x00`." -/
def writtenBuffer (ibuf : List Byte) : List Byte := ibuf ++ List.replicate (Config.bufferBytes - ibuf.length) 0

/-- The `ilen` field of a written decode. -/
def writtenLength (ibuf : List Byte) (ilen : Option Nat) : BitVec 4 := BitVec.ofNat 4 (ilen.getD ibuf.length)

/-- The request a written transaction issues. -/
def Transaction.request : Transaction → Request
  | .varintEnc a => { emptyRequest 0b000 with a := writtenWord a }
  | .varintDec ibuf ilen => { emptyRequest 0b001 with ibuf := writtenBuffer ibuf, ilen := writtenLength ibuf ilen }
  | .varlongEnc a => { emptyRequest 0b010 with a := writtenWord a }
  | .varlongDec ibuf ilen => { emptyRequest 0b011 with ibuf := writtenBuffer ibuf, ilen := writtenLength ibuf ilen }
  | .posEnc a b c => { emptyRequest 0b100 with a := writtenWord a, b := writtenWord b, c := writtenWord c }
  | .posDec a => { emptyRequest 0b101 with a := writtenWord a }
  | .rsvd6 => emptyRequest 0b110
  | .rsvd7 => emptyRequest 0b111

/-- Its packed form (R58). -/
def Transaction.word (t : Transaction) : RequestWord := packRequest t.request

/-- What a written response lists: the fields R27 defines for the request that was decoded as `d`, and no others. On an
error that is `status` and `cnt` (R103). -/
def definedPart (d : Except Reject Instr) (r : Response) : Answer :=
  match r.status, d with
  | .error e, _ => { bareAnswer (.error e) with cnt := some r.cnt }
  | .ok, .ok (.varintEnc _) => { bareAnswer .ok with bytes := r.obuf.take r.cnt.toNat, cnt := some r.cnt }
  | .ok, .ok (.varintDec _ _) => { bareAnswer .ok with r0 := some r.r0, cnt := some r.cnt }
  | .ok, .ok (.varlongEnc _) => { bareAnswer .ok with bytes := r.obuf.take r.cnt.toNat, cnt := some r.cnt }
  | .ok, .ok (.varlongDec _ _) => { bareAnswer .ok with r0 := some r.r0, cnt := some r.cnt }
  | .ok, .ok (.posEnc _ _ _) => { bareAnswer .ok with r0 := some r.r0 }
  | .ok, .ok (.posDec _) => { bareAnswer .ok with r0 := some r.r0, r1 := some r.r1, r2 := some r.r2 }
  | .ok, .error _ => { bareAnswer .ok with cnt := some r.cnt }

end Sys2Proof.Machine
end

