-- ==== Sys2Proof/Safety.lean ====
section
/-! DEFINITION. The terms claims use: a transaction answered, a legal interface, the length and the value of an encoded
sequence. -/

namespace Sys2Proof.Machine

/-- From `s`, one response `r` was given and nothing else happened: the requests in flight and the earlier responses are as
before (R17, R121), and the host's index went up by one (R19; that it does so as the response is given is the model's choice,
log entry 7). The draw counter is the model's own and is not spoken of. -/
def Answered (s t : State) (r : Response) : Prop :=
  t.requests = s.requests ∧ t.responses = s.responses ++ [r] ∧ t.hostIndex = s.hostIndex + 1

/-- A response the block can give: ten bytes of `obuf` (R25), `cnt = 0` on any error (R103), never OVERFLOW (R67, R80). -/
def legalResponse (r : Response) : Prop :=
  r.obuf.length = Config.bufferBytes ∧ (r.status ≠ .ok → r.cnt = 0) ∧ r.status ≠ .error .overflow

/-- The invariant of the interface: every pending response is legal, and the host's index counts at least the responses
still pending (R19: it advances by one per response; as the response is given, by the model's choice, log entry 7). -/
def State.Inv (s : State) : Prop :=
  (∀ r ∈ s.responses, legalResponse r) ∧ s.responses.length ≤ s.hostIndex

/-- `bitlen(u)` of R49: "the index of the highest set bit of u, plus one". -/
def bitLength (u : Nat) : Nat := if u = 0 then 0 else Nat.log2 u + 1

/-- `n(u)` of R49: 1 for 0, otherwise `ceil(bitlen(u) / 7)`. -/
def encodedLength (u : Nat) : Nat := if u = 0 then 1 else (bitLength u + 6) / 7

/-- Byte k of R48: payload `u[7k+6:7k]`, "where bit positions at N or above read as 0", flag set exactly before the last. -/
def encodedByte {w : Nat} (u : BitVec w) (n k : Nat) : Byte := flaggedByte (decide (k + 1 < n)) (u.extractLsb' (7 * k) 7)

/-- The number the payloads of a sequence build, least significant chunk first (R37, R71, R83), before it is cut to the
accumulator's width. -/
def wireValue : List Byte → Nat
  | [] => 0
  | b :: rest => b.toNat % 128 + 128 * wireValue rest

/-- The first `n` bytes of the buffer all have bit 7 set. -/
def flaggedBelow (ibuf : List Byte) (n : Nat) : Prop := ∀ k < n, (memRead ibuf k).getLsbD 7 = true

/-- `signed26` of R97, of a number below 2^26. -/
def signed26 (t : Int) : Int := if t < 2 ^ 25 then t else t - 2 ^ 26

end Sys2Proof.Machine
end

