-- ==== Sys2Proof/Certificates/Slice0/Obligations.lean ====
section
/-! DEFINITION. What is to be proved of the model. Each statement names the rules of spec/ it formalises. -/

open Sys2Proof Sys2Proof.Machine

/-! ## The transaction encoding (30_encoding.md) -/

/-- Decoding an encoded well-formed instruction gives it back, every operand at every value its field admits (R58, R60). -/
def Obligations.DecodeOfEncodeIsIdentity : Prop :=
  ∀ i : Instr, i.wellFormed = true → decode (encode i) = .ok i

/-- The other direction: what the decoder reads is well formed, and encoding it keeps exactly the bits of `op` and of the
operand fields the table gives the operation, the rest being 0 (R58, R63, R64). -/
def Obligations.EncodeOfDecodeKeepsOperandBits : Prop :=
  ∀ (w : RequestWord) (i : Instr), decode w = .ok i → i.wellFormed = true ∧ encode i = w &&& operandMask i

/-- Request bits 2:0 alone select the operation (R60, R61, R63), and each operand is the field at its place in R58. -/
def Obligations.OpBitsAloneSelectTheOperation : Prop :=
  ∀ w : RequestWord,
    (w.extractLsb' 0 3 = 0b000 → decode w = .ok (.varintEnc (w.extractLsb' 8 64))) ∧
    (w.extractLsb' 0 3 = 0b001 → ∃ ibuf : List Byte, ibuf.length = 10 ∧
      (∀ k < 10, ibuf[k]? = some (w.extractLsb' (200 + 8 * k) 8)) ∧
      decode w = .ok (.varintDec ibuf (w.extractLsb' 4 4))) ∧
    (w.extractLsb' 0 3 = 0b010 → decode w = .ok (.varlongEnc (w.extractLsb' 8 64))) ∧
    (w.extractLsb' 0 3 = 0b011 → ∃ ibuf : List Byte, ibuf.length = 10 ∧
      (∀ k < 10, ibuf[k]? = some (w.extractLsb' (200 + 8 * k) 8)) ∧
      decode w = .ok (.varlongDec ibuf (w.extractLsb' 4 4))) ∧
    (w.extractLsb' 0 3 = 0b100 →
      decode w = .ok (.posEnc (w.extractLsb' 8 64) (w.extractLsb' 72 64) (w.extractLsb' 136 64))) ∧
    (w.extractLsb' 0 3 = 0b101 → decode w = .ok (.posDec (w.extractLsb' 8 64))) ∧
    (w.extractLsb' 0 3 = 0b110 → decode w = .error (.reservedOp 0b110)) ∧
    (w.extractLsb' 0 3 = 0b111 → decode w = .error (.reservedOp 0b111))

/-- Requests written out as 280-bit numbers from the layout of R58 decode to the instruction they stand for (vectors V5, K3,
W5, X15, Y10, Z2, Q3, K1 of 95_test_vectors.md). -/
def Obligations.WordsOfTheSpecDecode : Prop :=
  decodeTableWord 280 0x12C00 = some (.varintEnc 300) ∧
  decodeTableWord 280 0x108 = some (.varintEnc 1) ∧
  decodeTableWord 280 0x02AC00000000000000000000000000000000000000000000000021 =
    some (.varintDec [0xAC, 0x02, 0, 0, 0, 0, 0, 0, 0, 0] 2) ∧
  decodeTableWord 280 0xFFFFFFFFFFFFFFFE02 = some (.varlongEnc 0xFFFFFFFFFFFFFFFE) ∧
  decodeTableWord 280 0x808000000000000000000000000000000000000000000000000023 =
    some (.varlongDec [0x80, 0x80, 0, 0, 0, 0, 0, 0, 0, 0] 2) ∧
  decodeTableWord 280 0x00000000000000010000000000000001000000000000000104 = some (.posEnc 1 1 1) ∧
  decodeTableWord 280 0xFFFFFFFFFFFFFFFF05 = some (.posDec 0xFFFFFFFFFFFFFFFF) ∧
  decodeTableWord 280 0x06 = none

/-- Every field of a response stands where R59 puts it, the status by its code of R62, and bits 3:2 are driven 0. -/
def Obligations.PackedResponseHasTheLayout : Prop :=
  ∀ r : Response, r.obuf.length = 10 →
    (packResponse r).extractLsb' 0 2 =
      (match r.status with
        | .ok => 0b00
        | .error .overflow => 0b01
        | .error .truncated => 0b10
        | .error .illegalOp => 0b11) ∧
    (packResponse r).extractLsb' 2 2 = 0 ∧
    (packResponse r).extractLsb' 4 4 = r.cnt ∧
    (packResponse r).extractLsb' 8 64 = r.r0 ∧
    (packResponse r).extractLsb' 72 64 = r.r1 ∧
    (packResponse r).extractLsb' 136 64 = r.r2 ∧
    ∀ k < 10, r.obuf[k]? = some ((packResponse r).extractLsb' (200 + 8 * k) 8)

/-- A well-formed written transaction (R64) is issued as the instruction it writes: integers modulo 2^64, omitted fields 0,
omitted bytes 0x00, an omitted `ilen` the number of bytes listed; RSVD6 and RSVD7 are reserved. -/
def Obligations.WrittenTransactionIsItsInstruction : Prop :=
  (∀ a : Option Int, decode (Transaction.varintEnc a).word = .ok (.varintEnc (BitVec.ofInt 64 (a.getD 0)))) ∧
  (∀ (bytes : List Byte) (ilen : Option Nat), (Transaction.varintDec bytes ilen).wellFormed = true →
    decode (Transaction.varintDec bytes ilen).word =
      .ok (.varintDec (bytes ++ List.replicate (10 - bytes.length) 0) (BitVec.ofNat 4 (ilen.getD bytes.length)))) ∧
  (∀ a : Option Int, decode (Transaction.varlongEnc a).word = .ok (.varlongEnc (BitVec.ofInt 64 (a.getD 0)))) ∧
  (∀ (bytes : List Byte) (ilen : Option Nat), (Transaction.varlongDec bytes ilen).wellFormed = true →
    decode (Transaction.varlongDec bytes ilen).word =
      .ok (.varlongDec (bytes ++ List.replicate (10 - bytes.length) 0) (BitVec.ofNat 4 (ilen.getD bytes.length)))) ∧
  (∀ a b c : Option Int, decode (Transaction.posEnc a b c).word =
    .ok (.posEnc (BitVec.ofInt 64 (a.getD 0)) (BitVec.ofInt 64 (b.getD 0)) (BitVec.ofInt 64 (c.getD 0)))) ∧
  (∀ a : Option Int, decode (Transaction.posDec a).word = .ok (.posDec (BitVec.ofInt 64 (a.getD 0)))) ∧
  decode Transaction.rsvd6.word = .error (.reservedOp 6) ∧
  decode Transaction.rsvd7.word = .error (.reservedOp 7)

/-! ## The machine as a whole (10_state.md, 60_exceptions.md, 70_reset_and_hazards.md)

The spec is untimed (R122) and names no step. Wherever a statement speaks of a step, that one step takes the oldest request
and answers it whole is the model's reading: log entry 3. Wherever one says `Answered` or speaks of the host's index, R19
gives "by one per response", and that the index advances as the response is given, not as the host collects it, is the
model's choice: log entry 7. -/

/-- A step runs the decoded request: the oldest request is taken out of flight and `exec` runs its instruction, which `op`
selects (R60). THE MODEL'S READING that a step takes exactly one request, the oldest, and runs it whole: log entry 3
(DEDUCED; the spec names no step). -/
def Obligations.StepRunsTheDecodedRequest : Prop :=
  ∀ (s : State) (w : RequestWord) (rest : List RequestWord) (i : Instr),
    s.requests = w :: rest → decode w = .ok i → step s = exec i { s with requests := rest }

/-- A request with op 6 or 7 is answered ILLEGAL_OP with `cnt = 0`, whatever its other fields hold (R61, R102, R107). -/
def Obligations.ReservedOpIsAnsweredIllegal : Prop :=
  ∀ (s : State) (w : RequestWord) (rest : List RequestWord),
    s.requests = w :: rest → (w.extractLsb' 0 3 = 6 ∨ w.extractLsb' 0 3 = 7) →
    ∃ t r, step s = .next t ∧ Answered { s with requests := rest } t r ∧ r.status = .error .illegalOp ∧ r.cnt = 0

/-- With no request in flight a step changes nothing ("Nothing happens except in answer to a request", R108). THE MODEL'S
CHOICE that such a step goes on: log entry 2. -/
def Obligations.NothingHappensWithoutARequest : Prop :=
  ∀ s : State, s.requests = [] → step s = .next s

/-- Every instruction runs in every state, gives exactly one response, and leaves everything else as it was (R17, R25,
R104): the frame of all six operations. THE MODEL'S CHOICE that the host's index advances as the response is given: log
entry 7. -/
def Obligations.EveryInstructionGivesOneResponse : Prop :=
  ∀ (i : Instr) (s : State), ∃ t r, exec i s = .next t ∧ Answered s t r

/-- Which statuses an operation can give: an encoder OK only (OVERFLOW is unreachable, R67, R80), a decoder OK or TRUNCATED,
a position operation OK only; an error has `cnt = 0` (R103, R107). -/
def Obligations.StatusesEachOperationCanGive : Prop :=
  ∀ (i : Instr) (s : State), ∃ t r, exec i s = .next t ∧ Answered s t r ∧
    (r.status ≠ .ok → r.cnt = 0) ∧
    match i with
    | .varintEnc _ => r.status = .ok
    | .varintDec _ _ => r.status = .ok ∨ r.status = .error .truncated
    | .varlongEnc _ => r.status = .ok
    | .varlongDec _ _ => r.status = .ok ∨ r.status = .error .truncated
    | .posEnc _ _ _ => r.status = .ok
    | .posDec _ => r.status = .ok

/-- The defined part of a response depends on the request alone (R21, R26, R44): two states that share nothing but their
oldest request answer it alike. -/
def Obligations.ResponseDependsOnItsRequestAlone : Prop :=
  ∀ (s s' : State) (w : RequestWord) (rest rest' : List RequestWord),
    s.requests = w :: rest → s'.requests = w :: rest' →
    ∃ t r t' r', step s = .next t ∧ Answered { s with requests := rest } t r ∧
      step s' = .next t' ∧ Answered { s' with requests := rest' } t' r' ∧
      definedPart (decode w) r = definedPart (decode w) r'

/-- An error leaves nothing behind (R106). Whatever requests `later` follow a request that fails and however far the machine
has gone on, it has answered as many of them, and each alike in the fields R27 defines, as if the failed request had never
been issued; and the failed request gets the same error in every state in which it is issued again. -/
def Obligations.ErrorsLeaveNothingBehind : Prop :=
  ∀ (s t : State) (w : RequestWord) (rest : List RequestWord) (r : Response) (e : ErrorKind),
    s.requests = w :: rest → step s = .next t → Answered { s with requests := rest } t r → r.status = .error e →
    (∀ (later : List RequestWord) (n : Nat), ∃ (t' u' : State) (rs us : List Response),
      Sys2Proof.core.run n { t with requests := later } = .next t' ∧
      Sys2Proof.core.run n { s with requests := later } = .next u' ∧
      t'.requests = u'.requests ∧ t'.responses = t.responses ++ rs ∧ u'.responses = s.responses ++ us ∧
      rs.length = us.length ∧
      ∀ (k : Nat) (r₁ r₂ : Response), rs[k]? = some r₁ → us[k]? = some r₂ →
        ∃ v, later[k]? = some v ∧ definedPart (decode v) r₁ = definedPart (decode v) r₂) ∧
    (∀ (s' : State) (rest' : List RequestWord), s'.requests = w :: rest' →
      ∃ t' r', step s' = .next t' ∧ Answered { s' with requests := rest' } t' r' ∧ r'.status = .error e)

/-- One response per request, in the order the requests were accepted, each of them the one its request would get alone
right after reset (R26, R44, R121); every request gets its response (R122). THE MODEL'S READING that it takes as many steps
as there are requests in flight: log entry 3 (DEDUCED; the spec names no step). THE MODEL'S CHOICE that the host's index counts
the responses given: log entry 7. -/
def Obligations.RunAnswersEveryRequestInOrder : Prop :=
  ∀ s : State, ∃ (t : State) (rs : List Response),
    Sys2Proof.core.run s.requests.length s = .next t ∧ t.requests = [] ∧ t.responses = s.responses ++ rs ∧
    rs.length = s.requests.length ∧ t.hostIndex = s.hostIndex + s.requests.length ∧
    ∀ (k : Nat) (w : RequestWord) (r : Response), s.requests[k]? = some w → rs[k]? = some r →
      ∃ u r', step { State.reset with requests := [w] } = .next u ∧ u.responses = [r'] ∧
        definedPart (decode w) r = definedPart (decode w) r'

/-- What a host issues and collects is first in, first out: two requests issued back to back to an idle port, answered by two
steps, are collected in their order, each with the response it would get alone right after reset (R120, R121). THE MODEL'S
READING that two requests take two steps: log entry 3. -/
def Obligations.RequestsAreCollectedFirstInFirstOut : Prop :=
  ∀ (s : State) (v w : RequestWord), s.requests = [] → s.responses = [] →
    ∃ (t t1 t2 : State) (r1 r2 : Response), Sys2Proof.core.run 2 ((s.accept v).accept w) = .next t ∧
      t.collect = some (r1, t1) ∧ t1.collect = some (r2, t2) ∧ t2.collect = none ∧
      (∃ u r', step (State.reset.accept v) = .next u ∧ u.responses = [r'] ∧
        definedPart (decode v) r1 = definedPart (decode v) r') ∧
      (∃ u r', step (State.reset.accept w) = .next u ∧ u.responses = [r'] ∧
        definedPart (decode w) r2 = definedPart (decode w) r')

/-- Every step keeps the interface legal: each pending response has ten output bytes, has `cnt = 0` if its status is not OK,
and is never OVERFLOW; the host's index counts the pending responses (R19, R25, R67, R80, R103), THE MODEL'S CHOICE, log
entry 7. -/
def Obligations.EveryStepKeepsTheInterfaceLegal : Prop :=
  ∀ s t : State, s.Inv → step s = .next t → t.Inv

/-- The state after reset is legal. -/
def Obligations.ResetIsLegal : Prop := State.reset.Inv

/-- Reset leaves no request in flight and no response pending, and the first request after a reset at any moment is answered
as any other (R115, R117). -/
def Obligations.ResetEmptiesTheInterface : Prop :=
  State.reset.requests = [] ∧ State.reset.responses = [] ∧
  ∀ (s s' : State) (w : RequestWord) (rest : List RequestWord),
    s.resetPort.requests = [] ∧ s.resetPort.responses = [] ∧
    (s'.requests = w :: rest → ∃ t r t' r', step (s.resetPort.accept w) = .next t ∧ t.requests = [] ∧ t.responses = [r] ∧
      step s' = .next t' ∧ Answered { s' with requests := rest } t' r' ∧
      definedPart (decode w) r = definedPart (decode w) r')

/-! ## VARINT_ENC and VARLONG_ENC -/

/-- VARINT_ENC ends OK with `cnt = n(a[31:0])` of R49 and the bytes of R48 (R68); nothing else changes. -/
def Obligations.VarintEncEmitsTheMinimalChunks : Prop :=
  ∀ (a : Word) (s : State), ∃ t r, exec (.varintEnc a) s = .next t ∧ Answered s t r ∧ r.status = .ok ∧
    r.cnt.toNat = encodedLength (a.setWidth 32).toNat ∧
    ∀ k < r.cnt.toNat, r.obuf[k]? = some (encodedByte (a.setWidth 32) r.cnt.toNat k)

/-- VARLONG_ENC ends OK with `cnt = n(a)` of R49 and the bytes of R48 (R78, R81); nothing else changes. -/
def Obligations.VarlongEncEmitsTheMinimalChunks : Prop :=
  ∀ (a : Word) (s : State), ∃ t r, exec (.varlongEnc a) s = .next t ∧ Answered s t r ∧ r.status = .ok ∧
    r.cnt.toNat = encodedLength a.toNat ∧
    ∀ k < r.cnt.toNat, r.obuf[k]? = some (encodedByte a r.cnt.toNat k)

/-- Both encoders always end OK within 5 and 10 bytes, at least one byte each: OverflowError is unreachable (R67, R80). -/
def Obligations.EncodersNeverOverflow : Prop :=
  ∀ (a : Word) (s : State),
    (∃ t r, exec (.varintEnc a) s = .next t ∧ Answered s t r ∧ r.status = .ok ∧ 1 ≤ r.cnt.toNat ∧ r.cnt.toNat ≤ 5) ∧
    (∃ t r, exec (.varlongEnc a) s = .next t ∧ Answered s t r ∧ r.status = .ok ∧ 1 ≤ r.cnt.toNat ∧ r.cnt.toNat ≤ 10)

/-- The table of R50: length and last byte of a VarInt by signed value. -/
def Obligations.VarintLengthBySignedValue : Prop :=
  ∀ (a : Word) (s : State), ∃ t r last, exec (.varintEnc a) s = .next t ∧ Answered s t r ∧
    r.obuf[r.cnt.toNat - 1]? = some last ∧
    (0 ≤ (a.setWidth 32).toInt ∧ (a.setWidth 32).toInt ≤ 127 → r.cnt.toNat = 1 ∧ last.toNat ≤ 0x7F) ∧
    (128 ≤ (a.setWidth 32).toInt ∧ (a.setWidth 32).toInt ≤ 16383 →
      r.cnt.toNat = 2 ∧ 0x01 ≤ last.toNat ∧ last.toNat ≤ 0x7F) ∧
    (16384 ≤ (a.setWidth 32).toInt ∧ (a.setWidth 32).toInt ≤ 2097151 →
      r.cnt.toNat = 3 ∧ 0x01 ≤ last.toNat ∧ last.toNat ≤ 0x7F) ∧
    (2097152 ≤ (a.setWidth 32).toInt ∧ (a.setWidth 32).toInt ≤ 268435455 →
      r.cnt.toNat = 4 ∧ 0x01 ≤ last.toNat ∧ last.toNat ≤ 0x7F) ∧
    (268435456 ≤ (a.setWidth 32).toInt ∧ (a.setWidth 32).toInt ≤ 2147483647 →
      r.cnt.toNat = 5 ∧ 0x01 ≤ last.toNat ∧ last.toNat ≤ 0x07) ∧
    (-2147483648 ≤ (a.setWidth 32).toInt ∧ (a.setWidth 32).toInt ≤ -1 →
      r.cnt.toNat = 5 ∧ 0x08 ≤ last.toNat ∧ last.toNat ≤ 0x0F)

/-- R51: for k = 1 … 9 the values of 2^(7(k-1)) … 2^(7k)-1 take k bytes (from 0 for k = 1); a negative value takes 10, and
its 10th byte is 0x01. -/
def Obligations.VarlongLengthBySignedValue : Prop :=
  ∀ (a : Word) (s : State), ∃ t r, exec (.varlongEnc a) s = .next t ∧ Answered s t r ∧
    (∀ k : Nat, 1 ≤ k → k ≤ 9 → (if k = 1 then 0 else (2 : Int) ^ (7 * (k - 1))) ≤ a.toInt → a.toInt ≤ 2 ^ (7 * k) - 1 →
      r.cnt.toNat = k) ∧
    (a.toInt < 0 → r.cnt.toNat = 10 ∧ r.obuf[9]? = some 0x01)

/-- `a[63:32]` does not affect VARINT_ENC (R40, R65). -/
def Obligations.VarintEncIgnoresTheHighHalf : Prop :=
  ∀ (a a' : Word) (s s' : State), a.setWidth 32 = a'.setWidth 32 →
    ∃ t r t' r', exec (.varintEnc a) s = .next t ∧ Answered s t r ∧ exec (.varintEnc a') s' = .next t' ∧ Answered s' t' r' ∧
      definedPart (.ok (.varintEnc a)) r = definedPart (.ok (.varintEnc a')) r'

/-! ## VARINT_DEC and VARLONG_DEC -/

/-- Normal termination of VARINT_DEC: byte n is available, the bytes before it have bit 7 set and it has not. The result is
the pattern the payloads build in 32 bits, unchanged, sign-extended on `r0`; `cnt` is the number of bytes read (R71, R72,
R75, R76). -/
def Obligations.VarintDecStopsAtTheTerminatingByte : Prop :=
  ∀ (ibuf : List Byte) (ilen : BitVec 4) (s : State) (n : Nat),
    n < 5 → n < ilen.toNat → flaggedBelow ibuf n → (memRead ibuf n).getLsbD 7 = false →
    ∃ t r, exec (.varintDec ibuf ilen) s = .next t ∧ Answered s t r ∧ r.status = .ok ∧
      r.r0 = (BitVec.ofNat 32 (wireValue (ibuf.take (n + 1)))).signExtend 64 ∧ r.cnt.toNat = n + 1

/-- Negation path of VARINT_DEC: five bytes available, bit 7 set on every one. The result is the negation modulo 2^32 of the
accumulated pattern, `cnt` is 5, and no later byte matters (R73). -/
def Obligations.VarintDecNegatesWhenTheFifthByteIsFlagged : Prop :=
  ∀ (ibuf : List Byte) (ilen : BitVec 4) (s : State), 5 ≤ ilen.toNat → flaggedBelow ibuf 5 →
    ∃ t r, exec (.varintDec ibuf ilen) s = .next t ∧ Answered s t r ∧ r.status = .ok ∧
      r.r0 = (BitVec.ofInt 32 (-(wireValue (ibuf.take 5) : Int))).signExtend 64 ∧ r.cnt.toNat = 5

/-- VARINT_DEC raises TruncatedInputError exactly when some byte i of 0 … 4 is needed and not available (R74), and then
`cnt = 0` (R103); otherwise it ends OK. -/
def Obligations.VarintDecTruncatesExactlyWhenAByteIsMissing : Prop :=
  ∀ (ibuf : List Byte) (ilen : BitVec 4) (s : State),
    ∃ t r, exec (.varintDec ibuf ilen) s = .next t ∧ Answered s t r ∧
      (r.status = .error .truncated ↔ ∃ i < 5, flaggedBelow ibuf i ∧ ilen.toNat ≤ i) ∧
      (r.status = .error .truncated → r.cnt = 0) ∧
      (r.status ≠ .error .truncated → r.status = .ok)

/-- Normal termination of VARLONG_DEC, over 64 bits and 10 bytes (R83, R84, R87). -/
def Obligations.VarlongDecStopsAtTheTerminatingByte : Prop :=
  ∀ (ibuf : List Byte) (ilen : BitVec 4) (s : State) (n : Nat),
    n < 10 → n < ilen.toNat → flaggedBelow ibuf n → (memRead ibuf n).getLsbD 7 = false →
    ∃ t r, exec (.varlongDec ibuf ilen) s = .next t ∧ Answered s t r ∧ r.status = .ok ∧
      r.r0 = BitVec.ofNat 64 (wireValue (ibuf.take (n + 1))) ∧ r.cnt.toNat = n + 1

/-- Negation path of VARLONG_DEC (R85). -/
def Obligations.VarlongDecNegatesWhenTheTenthByteIsFlagged : Prop :=
  ∀ (ibuf : List Byte) (ilen : BitVec 4) (s : State), 10 ≤ ilen.toNat → flaggedBelow ibuf 10 →
    ∃ t r, exec (.varlongDec ibuf ilen) s = .next t ∧ Answered s t r ∧ r.status = .ok ∧
      r.r0 = BitVec.ofInt 64 (-(wireValue (ibuf.take 10) : Int)) ∧ r.cnt.toNat = 10

/-- VARLONG_DEC raises TruncatedInputError exactly when some byte i of 0 … 9 is needed and not available (R86). -/
def Obligations.VarlongDecTruncatesExactlyWhenAByteIsMissing : Prop :=
  ∀ (ibuf : List Byte) (ilen : BitVec 4) (s : State),
    ∃ t r, exec (.varlongDec ibuf ilen) s = .next t ∧ Answered s t r ∧
      (r.status = .error .truncated ↔ ∃ i < 10, flaggedBelow ibuf i ∧ ilen.toNat ≤ i) ∧
      (r.status = .error .truncated → r.cnt = 0) ∧
      (r.status ≠ .error .truncated → r.status = .ok)

/-- A byte a decoder does not read has no effect: buffers that agree on the bytes read, which are those before MAXB and
`ilen` with no terminating byte before them, are decoded alike (R33, R34). -/
def Obligations.UnreadInputBytesHaveNoEffect : Prop :=
  ∀ (ibuf ibuf' : List Byte) (ilen : BitVec 4) (s s' : State),
    ((∀ k < 5, k < ilen.toNat → flaggedBelow ibuf k → memRead ibuf k = memRead ibuf' k) →
      ∃ t r t' r', exec (.varintDec ibuf ilen) s = .next t ∧ Answered s t r ∧
        exec (.varintDec ibuf' ilen) s' = .next t' ∧ Answered s' t' r' ∧
        definedPart (.ok (.varintDec ibuf ilen)) r = definedPart (.ok (.varintDec ibuf' ilen)) r') ∧
    ((∀ k < 10, k < ilen.toNat → flaggedBelow ibuf k → memRead ibuf k = memRead ibuf' k) →
      ∃ t r t' r', exec (.varlongDec ibuf ilen) s = .next t ∧ Answered s t r ∧
        exec (.varlongDec ibuf' ilen) s' = .next t' ∧ Answered s' t' r' ∧
        definedPart (.ok (.varlongDec ibuf ilen)) r = definedPart (.ok (.varlongDec ibuf' ilen)) r')

/-- All values of `ilen` from 10 to 15 behave alike in both decoders (R31). -/
def Obligations.FullBufferLengthsBehaveAlike : Prop :=
  ∀ (ibuf : List Byte) (ilen ilen' : BitVec 4) (s s' : State), 10 ≤ ilen.toNat → 10 ≤ ilen'.toNat →
    (∃ t r t' r', exec (.varintDec ibuf ilen) s = .next t ∧ Answered s t r ∧
      exec (.varintDec ibuf ilen') s' = .next t' ∧ Answered s' t' r' ∧
      definedPart (.ok (.varintDec ibuf ilen)) r = definedPart (.ok (.varintDec ibuf ilen')) r') ∧
    (∃ t r t' r', exec (.varlongDec ibuf ilen) s = .next t ∧ Answered s t r ∧
      exec (.varlongDec ibuf ilen') s' = .next t' ∧ Answered s' t' r' ∧
      definedPart (.ok (.varlongDec ibuf ilen)) r = definedPart (.ok (.varlongDec ibuf ilen')) r')

/-! ## Round trips -/

/-- R77: what VARINT_ENC emits for `a[31:0]`, given back to VARINT_DEC with `ilen = cnt`, is the sign-extended value with
the same `cnt`, whatever stands in the buffer after those bytes. -/
def Obligations.VarintRoundTrip : Prop :=
  ∀ (a : Word) (s s' : State), ∃ t r, exec (.varintEnc a) s = .next t ∧ Answered s t r ∧ r.status = .ok ∧
    ∀ tail : List Byte, ∃ t' r', exec (.varintDec (takenBytes r ++ tail) r.cnt) s' = .next t' ∧ Answered s' t' r' ∧
      r'.status = .ok ∧ r'.r0 = (a.setWidth 32).signExtend 64 ∧ r'.cnt = r.cnt

/-- R88: the same for VARLONG_ENC, VARLONG_DEC and 64 bits. -/
def Obligations.VarlongRoundTrip : Prop :=
  ∀ (a : Word) (s s' : State), ∃ t r, exec (.varlongEnc a) s = .next t ∧ Answered s t r ∧ r.status = .ok ∧
    ∀ tail : List Byte, ∃ t' r', exec (.varlongDec (takenBytes r ++ tail) r.cnt) s' = .next t' ∧ Answered s' t' r' ∧
      r'.status = .ok ∧ r'.r0 = a ∧ r'.cnt = r.cnt

/-- R89: a non-negative 32-bit value has one sequence in both formats; a negative one takes 5 bytes as a VarInt and 10 as a
VarLong, and its VarInt sequence, decoded as a VarLong, gives its positive 32-bit pattern. -/
def Obligations.VarintAndVarlongDifferOnNegatives : Prop :=
  ∀ (v : BitVec 32) (s s' : State), ∃ t r t' r',
    exec (.varintEnc (v.signExtend 64)) s = .next t ∧ Answered s t r ∧
    exec (.varlongEnc (v.signExtend 64)) s' = .next t' ∧ Answered s' t' r' ∧
    (0 ≤ v.toInt → takenBytes r = takenBytes r' ∧ r.cnt = r'.cnt) ∧
    (v.toInt < 0 → r.cnt.toNat = 5 ∧ r'.cnt.toNat = 10 ∧
      ∀ (tail : List Byte) (s'' : State), ∃ u q, exec (.varlongDec (takenBytes r ++ tail) r.cnt) s'' = .next u ∧
        Answered s'' u q ∧ q.status = .ok ∧ q.r0 = v.setWidth 64 ∧ 0 < q.r0.toInt)

/-- A host that walks a stream as R118 says recovers an encoded value that starts at its position, and moves past exactly
its bytes (R75, R77, R87, R88, R119), in either format and whatever comes before and after. -/
def Obligations.StreamWalkRecoversAnEncodedValue : Prop :=
  ∀ (a : Word) (s s' : State) (before after : List Byte),
    (∃ t r t' r', exec (.varintEnc a) s = .next t ∧ Answered s t r ∧
      exec (.varintDec (streamBuffer (before ++ takenBytes r ++ after) before.length)
        (streamLength (before ++ takenBytes r ++ after) before.length)) s' = .next t' ∧ Answered s' t' r' ∧
      r'.status = .ok ∧ r'.r0 = (a.setWidth 32).signExtend 64 ∧
      streamAdvance before.length r' = (before ++ takenBytes r).length) ∧
    (∃ t r t' r', exec (.varlongEnc a) s = .next t ∧ Answered s t r ∧
      exec (.varlongDec (streamBuffer (before ++ takenBytes r ++ after) before.length)
        (streamLength (before ++ takenBytes r ++ after) before.length)) s' = .next t' ∧ Answered s' t' r' ∧
      r'.status = .ok ∧ r'.r0 = a ∧
      streamAdvance before.length r' = (before ++ takenBytes r).length)

/-! ## POS_ENC and POS_DEC (42_position.md) -/

/-- POS_ENC ends OK with the word `a[25:0] ++ c[25:0] ++ b[11:0]` (R56, R90). -/
def Obligations.PosEncPacksThreeFields : Prop :=
  ∀ (a b c : Word) (s : State), ∃ t r, exec (.posEnc a b c) s = .next t ∧ Answered s t r ∧ r.status = .ok ∧
    r.r0 = a.extractLsb' 0 26 ++ c.extractLsb' 0 26 ++ b.extractLsb' 0 12

/-- POS_ENC keeps x and z modulo 2^26 and y modulo 2^12 and raises no error: inputs that agree in `a[25:0]`, `b[11:0]` and
`c[25:0]` give the same word (R91). -/
def Obligations.PosEncMasksItsInputs : Prop :=
  ∀ (a b c a' b' c' : Word) (s s' : State), a.extractLsb' 0 26 = a'.extractLsb' 0 26 →
    b.extractLsb' 0 12 = b'.extractLsb' 0 12 → c.extractLsb' 0 26 = c'.extractLsb' 0 26 →
    ∃ t r t' r', exec (.posEnc a b c) s = .next t ∧ Answered s t r ∧ exec (.posEnc a' b' c') s' = .next t' ∧
      Answered s' t' r' ∧ r.status = .ok ∧ r'.status = .ok ∧ r.r0 = r'.r0 ∧
      r.r0.toNat = a.toNat % 2 ^ 26 * 2 ^ 38 + c.toNat % 2 ^ 26 * 2 ^ 12 + b.toNat % 2 ^ 12

/-- POS_DEC ends OK with x sign-extended (R93) and y and z zero-extended (R94, R95), each in its stated range. -/
def Obligations.PosDecUnpacksThreeFields : Prop :=
  ∀ (a : Word) (s : State), ∃ t r, exec (.posDec a) s = .next t ∧ Answered s t r ∧ r.status = .ok ∧
    r.r0 = (a.extractLsb' 38 26).signExtend 64 ∧ -33554432 ≤ r.r0.toInt ∧ r.r0.toInt ≤ 33554431 ∧
    r.r1 = (a.extractLsb' 0 12).setWidth 64 ∧ r.r1.toNat ≤ 4095 ∧
    r.r2 = (a.extractLsb' 12 26).setWidth 64 ∧ r.r2.toNat ≤ 67108863

/-- The round-trip laws of R97: decode then encode is the identity on words; encode then decode gives x modulo 2^26 as a
signed number, y modulo 2^12 and z modulo 2^26; and that is the input exactly when each coordinate is in its range. -/
def Obligations.PositionRoundTripLaws : Prop :=
  (∀ (w : Word) (s s' : State), ∃ t r t' r', exec (.posDec w) s = .next t ∧ Answered s t r ∧
    exec (.posEnc r.r0 r.r1 r.r2) s' = .next t' ∧ Answered s' t' r' ∧ r'.r0 = w) ∧
  (∀ (x y z : Word) (s s' : State), ∃ t r t' r', exec (.posEnc x y z) s = .next t ∧ Answered s t r ∧
    exec (.posDec r.r0) s' = .next t' ∧ Answered s' t' r' ∧
    r'.r0.toInt = signed26 (x.toInt % 2 ^ 26) ∧ r'.r1.toInt = y.toInt % 2 ^ 12 ∧ r'.r2.toInt = z.toInt % 2 ^ 26 ∧
    ((r'.r0 = x ∧ r'.r1 = y ∧ r'.r2 = z) ↔
      (-2 ^ 25 ≤ x.toInt ∧ x.toInt < 2 ^ 25 ∧ 0 ≤ y.toInt ∧ y.toInt < 4096 ∧ 0 ≤ z.toInt ∧ z.toInt < 2 ^ 26)))

/-- The asymmetry of R96: in their ranges, a negative x comes back as itself, a negative z as z + 2^26 and a negative y as
y + 2^12. -/
def Obligations.NegativeCoordinatesComeBackAsymmetrically : Prop :=
  ∀ (x y z : Word) (s s' : State), -2 ^ 25 ≤ x.toInt → x.toInt < 0 → -2 ^ 12 ≤ y.toInt → y.toInt < 0 →
    -2 ^ 26 ≤ z.toInt → z.toInt < 0 →
    ∃ t r t' r', exec (.posEnc x y z) s = .next t ∧ Answered s t r ∧ exec (.posDec r.r0) s' = .next t' ∧
      Answered s' t' r' ∧ r'.r0 = x ∧ r'.r1.toInt = y.toInt + 2 ^ 12 ∧ r'.r2.toInt = z.toInt + 2 ^ 26
end

