-- ==== Sys2Proof/Laws/State.lean ====
section
/-! SUPPORT. One lemma per field per update of the state, and the inversion of taking a request. -/

namespace Sys2Proof.Machine

@[simp] theorem reset_requests : State.reset.requests = [] := rfl
@[simp] theorem reset_responses : State.reset.responses = [] := rfl

@[simp] theorem respond_requests (a : Answer) (s : State) : (s.respond a).requests = s.requests := rfl
@[simp] theorem respond_responses (a : Answer) (s : State) :
    (s.respond a).responses = s.responses ++ [driveResponse s.draws a] := rfl
@[simp] theorem respond_hostIndex (a : Answer) (s : State) : (s.respond a).hostIndex = s.hostIndex + 1 := rfl
@[simp] theorem respond_draws (a : Answer) (s : State) : (s.respond a).draws = s.draws + 1 := rfl

@[simp] theorem accept_requests (w : RequestWord) (s : State) : (s.accept w).requests = s.requests ++ [w] := rfl
@[simp] theorem accept_responses (w : RequestWord) (s : State) : (s.accept w).responses = s.responses := rfl
@[simp] theorem accept_hostIndex (w : RequestWord) (s : State) : (s.accept w).hostIndex = s.hostIndex := rfl
@[simp] theorem accept_draws (w : RequestWord) (s : State) : (s.accept w).draws = s.draws := rfl

@[simp] theorem resetPort_requests (s : State) : s.resetPort.requests = [] := rfl
@[simp] theorem resetPort_responses (s : State) : s.resetPort.responses = [] := rfl
@[simp] theorem resetPort_hostIndex (s : State) : s.resetPort.hostIndex = s.hostIndex := rfl
@[simp] theorem resetPort_draws (s : State) : s.resetPort.draws = s.draws := rfl

@[simp] theorem withFetchWord_requests (s : State) (nbits w : Nat) :
    (s.withFetchWord nbits w).requests = requestOfTableWord nbits w :: s.requests.tail := rfl
@[simp] theorem withFetchWord_responses (s : State) (nbits w : Nat) :
    (s.withFetchWord nbits w).responses = s.responses := rfl
@[simp] theorem withFetchWord_hostIndex (s : State) (nbits w : Nat) :
    (s.withFetchWord nbits w).hostIndex = s.hostIndex := rfl
@[simp] theorem withFetchWord_draws (s : State) (nbits w : Nat) : (s.withFetchWord nbits w).draws = s.draws := rfl

theorem takeRequest_nil {s : State} (h : s.requests = []) : s.takeRequest = none := by
  simp [State.takeRequest, h]

theorem takeRequest_cons {s : State} {w : RequestWord} {rest : List RequestWord} (h : s.requests = w :: rest) :
    s.takeRequest = some (w, { s with requests := rest }) := by
  simp [State.takeRequest, h]

/-- Giving a response is all that happens. -/
theorem answered_respond (a : Answer) (s : State) : Answered s (s.respond a) (driveResponse s.draws a) :=
  ⟨rfl, rfl, rfl⟩

end Sys2Proof.Machine
end

