-- ==== Sys2Proof/Laws/Response.lean ====
section
/-! SUPPORT. What the wires of a response carry: each defined field, and the length of the output buffer. -/

namespace Sys2Proof.Machine

@[simp] theorem drive_status (n : Nat) (a : Answer) : (driveResponse n a).status = a.status := rfl

theorem drive_r0 (n : Nat) {a : Answer} {v : Word} (h : a.r0 = some v) : (driveResponse n a).r0 = v := by
  simp [driveResponse, h]

theorem drive_r1 (n : Nat) {a : Answer} {v : Word} (h : a.r1 = some v) : (driveResponse n a).r1 = v := by
  simp [driveResponse, h]

theorem drive_r2 (n : Nat) {a : Answer} {v : Word} (h : a.r2 = some v) : (driveResponse n a).r2 = v := by
  simp [driveResponse, h]

theorem drive_cnt (n : Nat) {a : Answer} {v : BitVec 4} (h : a.cnt = some v) : (driveResponse n a).cnt = v := by
  simp [driveResponse, h]

/-- The defined bytes stand first. -/
theorem drive_obuf_take (n : Nat) (a : Answer) : (driveResponse n a).obuf.take a.bytes.length = a.bytes := by
  simp [driveResponse]

theorem drive_obuf_length (n : Nat) {a : Answer} (h : a.bytes.length ≤ Config.bufferBytes) :
    (driveResponse n a).obuf.length = Config.bufferBytes := by
  simp [driveResponse, bufferAt] at *; omega

end Sys2Proof.Machine
end

