-- ==== Sys2Proof/Laws/Codec.lean ====
section
/-! SUPPORT. What the encode loop emits and how the decode loop ends: one inversion lemma for each. -/

namespace Sys2Proof.Machine

/-! ### Bytes -/

theorem payload_flaggedByte (more : Bool) (chunk : BitVec 7) : payload (flaggedByte more chunk) = chunk := by
  revert more chunk; decide

theorem continues_flaggedByte (more : Bool) (chunk : BitVec 7) : continues (flaggedByte more chunk) = more := by
  revert more chunk; decide

theorem payload_toNat (b : Byte) : (payload b).toNat = b.toNat % 128 := by
  simp [payload]

theorem flaggedByte_toNat_mod (more : Bool) (chunk : BitVec 7) : (flaggedByte more chunk).toNat % 128 = chunk.toNat := by
  rw [← payload_toNat, payload_flaggedByte]

theorem flaggedByte_false_toNat (chunk : BitVec 7) : (flaggedByte false chunk).toNat = chunk.toNat := by
  revert chunk; decide

/-! ### The value of a sequence -/

theorem wireValue_append (xs ys : List Byte) :
    wireValue (xs ++ ys) = wireValue xs + 128 ^ xs.length * wireValue ys := by
  induction xs with
  | nil => simp [wireValue]
  | cons x xs ih => simp [wireValue, ih, pow_succ]; ring

theorem wireValue_lt (xs : List Byte) : wireValue xs < 128 ^ xs.length := by
  induction xs with
  | nil => simp [wireValue]
  | cons x xs ih => simp only [wireValue, List.length_cons, pow_succ]; omega

theorem wireValue_take_lt (xs : List Byte) (n : Nat) : wireValue (xs.take n) < 128 ^ n :=
  lt_of_lt_of_le (wireValue_lt _) (Nat.pow_le_pow_right (by decide) (by simp))

/-- One more byte adds its payload at its place. -/
theorem wireValue_take_succ (xs : List Byte) (n : Nat) :
    wireValue (xs.take (n + 1)) = wireValue (xs.take n) + 128 ^ n * ((memRead xs n).toNat % 128) := by
  rcases Nat.lt_or_ge n xs.length with h | h
  · rw [List.take_succ_eq_append_getElem h, wireValue_append]
    simp [wireValue, memRead, h, Nat.min_eq_left (Nat.le_of_lt h)]
  · simp [memRead, h, List.take_of_length_le h, List.take_of_length_le (Nat.le_succ_of_le h)]

/-- The accumulator step of a decoder (R71, R83), at any width. -/
theorem accumulate {w : Nat} (ibuf : List Byte) (i : Nat) :
    BitVec.ofNat w (wireValue (ibuf.take i)) ||| placedChunk (memRead ibuf i) i =
      BitVec.ofNat w (wireValue (ibuf.take (i + 1))) := by
  have hlt : wireValue (ibuf.take i) < 2 ^ (7 * i) := by
    have := wireValue_take_lt ibuf i
    rwa [pow_mul]
  have hsum : wireValue (ibuf.take (i + 1)) =
      wireValue (ibuf.take i) ||| ((payload (memRead ibuf i)).toNat <<< (7 * i)) := by
    rw [wireValue_take_succ, Nat.or_comm, ← Nat.shiftLeft_add_eq_or_of_lt hlt, payload_toNat, Nat.shiftLeft_eq, pow_mul,
      show (2 : Nat) ^ 7 = 128 from rfl, Nat.add_comm, Nat.mul_comm]
  rw [hsum, BitVec.ofNat_or]
  congr 1
  apply BitVec.eq_of_toNat_eq
  simp only [placedChunk, BitVec.toNat_shiftLeft, BitVec.toNat_setWidth, BitVec.toNat_ofNat, Nat.shiftLeft_eq]
  rw [Nat.mod_mul_mod]

/-! ### The decode loop -/

theorem flaggedBelow_zero (ibuf : List Byte) : flaggedBelow ibuf 0 := fun _ h => absurd h (Nat.not_lt_zero _)

theorem flaggedBelow_succ {ibuf : List Byte} {n : Nat} (h : flaggedBelow ibuf n) (hn : continues (memRead ibuf n) = true) :
    flaggedBelow ibuf (n + 1) := fun k hk => by
  rcases Nat.lt_succ_iff_lt_or_eq.mp hk with h' | rfl
  · exact h k h'
  · exact hn

/-- How a decoder ends, from byte `i` on with the payloads before it accumulated: at a terminating byte (R72, R84), at a
missing byte (R74, R86), or with every allowed byte read and flagged (R73, R85). -/
theorem decodeChunks_cases {w : Nat} (ibuf : List Byte) (ilen : BitVec 4) (room i : Nat) (hi : flaggedBelow ibuf i) :
    (∃ n, i ≤ n ∧ n < i + room ∧ n < ilen.toNat ∧ flaggedBelow ibuf n ∧ continues (memRead ibuf n) = false ∧
      decodeChunks ibuf ilen room i (BitVec.ofNat w (wireValue (ibuf.take i))) =
        .ok (BitVec.ofNat w (wireValue (ibuf.take (n + 1))), n + 1)) ∨
    (∃ n, i ≤ n ∧ n < i + room ∧ ilen.toNat ≤ n ∧ flaggedBelow ibuf n ∧
      decodeChunks ibuf ilen room i (BitVec.ofNat w (wireValue (ibuf.take i))) = .error .truncated) ∨
    (flaggedBelow ibuf (i + room) ∧ (∀ n, i ≤ n → n < i + room → n < ilen.toNat) ∧
      decodeChunks ibuf ilen room i (BitVec.ofNat w (wireValue (ibuf.take i))) =
        .ok (-BitVec.ofNat w (wireValue (ibuf.take (i + room))), i + room)) := by
  induction room generalizing i with
  | zero => exact .inr (.inr ⟨hi, fun n h h' => by omega, rfl⟩)
  | succ room ih =>
    rw [decodeChunks, accumulate]
    by_cases ha : i < ilen.toNat
    · by_cases hc : continues (memRead ibuf i) = true
      · simp only [available, ha, hc, decide_true, if_true]
        rcases ih (i + 1) (flaggedBelow_succ hi hc) with ⟨n, h1, h2, h⟩ | ⟨n, h1, h2, h⟩ | ⟨h1, h2, h3⟩
        · exact .inl ⟨n, by omega, by omega, h⟩
        · exact .inr (.inl ⟨n, by omega, by omega, h⟩)
        · rw [show i + 1 + room = i + (room + 1) by omega] at h1 h2 h3
          refine .inr (.inr ⟨h1, fun n hn hn' => ?_, h3⟩)
          rcases Nat.eq_or_lt_of_le hn with rfl | hlt
          · exact ha
          · exact h2 n hlt hn'
      · simp only [Bool.not_eq_true] at hc
        exact .inl ⟨i, le_refl _, by omega, ha, hi, hc, by simp [available, ha, hc]⟩
    · exact .inr (.inl ⟨i, le_refl _, by omega, by omega, hi, by simp [available, ha]⟩)

/-! ### The encode loop -/

theorem shift_chunk_toNat {w : Nat} (u : BitVec w) : (u >>> 7).toNat = u.toNat / 128 := by
  simp [Nat.shiftRight_eq_div_pow]

theorem shift_chunk_eq_zero {w : Nat} (u : BitVec w) : u >>> 7 = 0 ↔ u.toNat < 128 := by
  rw [← BitVec.toNat_inj, shift_chunk_toNat]
  simp

theorem encodedByte_zero {w : Nat} (u : BitVec w) (n : Nat) :
    encodedByte u n 0 = flaggedByte (decide (1 < n)) (lowChunk u) := by
  have : u.extractLsb' (7 * 0) 7 = lowChunk u := by ext j hj; simp [lowChunk]
  rw [encodedByte, this, Nat.zero_add]

theorem encodedLength_small {u : Nat} (h : u < 128) : encodedLength u = 1 := by
  unfold encodedLength bitLength
  split
  · rfl
  · have : Nat.log2 u < 7 := (Nat.log2_lt ‹_›).mpr h
    omega

theorem encodedLength_step {u : Nat} (h : 128 ≤ u) : encodedLength u = encodedLength (u / 128) + 1 := by
  have h0 : u ≠ 0 := by omega
  have h1 : u / 128 ≠ 0 := by omega
  have h2 : Nat.log2 (u / 128) = Nat.log2 u - 7 := by
    rw [show (128 : Nat) = 2 ^ 7 from rfl, Nat.log2_eq_log_two, Nat.log2_eq_log_two, Nat.log_div_base_pow]
  have h3 : 7 ≤ Nat.log2 u := (Nat.le_log2 h0).mpr h
  simp only [encodedLength, bitLength, if_neg h0, if_neg h1, h2]; omega

/-- What an encoder emits when its value fits the room: `n(u)` bytes, within the room (R48, R49). -/
theorem encodeChunks_ok {w : Nat} (room : Nat) (u : BitVec w) (h : u.toNat < 128 ^ (room + 1)) :
    ∃ bytes, encodeChunks (room + 1) u = .ok bytes ∧ bytes.length = encodedLength u.toNat ∧ bytes.length ≤ room + 1 ∧
      (∀ k < bytes.length, bytes[k]? = some (encodedByte u bytes.length k)) ∧ wireValue bytes = u.toNat := by
  induction room generalizing u with
  | zero =>
    have hu : u.toNat < 128 := by simpa using h
    refine ⟨[flaggedByte false (lowChunk u)], ?_, ?_, ?_, ?_, ?_⟩
    · rw [encodeChunks, if_pos ((shift_chunk_eq_zero u).mpr hu)]
    · simp [encodedLength_small hu]
    · simp
    · intro k hk
      obtain rfl : k = 0 := by simpa using hk
      simp [encodedByte_zero]
    · simp [wireValue, flaggedByte_toNat_mod, lowChunk, Nat.mod_eq_of_lt hu]
  | succ room ih =>
    by_cases hu : u.toNat < 128
    · refine ⟨[flaggedByte false (lowChunk u)], ?_, ?_, ?_, ?_, ?_⟩
      · rw [encodeChunks, if_pos ((shift_chunk_eq_zero u).mpr hu)]
      · simp [encodedLength_small hu]
      · simp
      · intro k hk
        obtain rfl : k = 0 := by simpa using hk
        simp [encodedByte_zero]
      · simp [wireValue, flaggedByte_toNat_mod, lowChunk, Nat.mod_eq_of_lt hu]
    · have hrest : (u >>> 7).toNat < 128 ^ (room + 1) := by
        rw [shift_chunk_toNat, Nat.div_lt_iff_lt_mul (by decide)]
        rwa [pow_succ] at h
      obtain ⟨bytes, hok, hlen, hle, hbytes, hval⟩ := ih (u >>> 7) hrest
      refine ⟨flaggedByte true (lowChunk u) :: bytes, ?_, ?_, ?_, ?_, ?_⟩
      · rw [encodeChunks, if_neg (mt (shift_chunk_eq_zero u).mp hu), hok]
      · rw [List.length_cons, hlen, shift_chunk_toNat, ← encodedLength_step (by omega)]
      · simp; omega
      · intro k hk
        cases k with
        | zero =>
          have : 0 < bytes.length := by
            rw [hlen]; unfold encodedLength bitLength; split <;> simp_all
          simp [encodedByte_zero, this]
        | succ k =>
          have hk' : k < bytes.length := by simpa using hk
          rw [List.getElem?_cons_succ, hbytes k hk']
          simp only [encodedByte, List.length_cons, Nat.add_lt_add_iff_right]
          congr 2
          ext j hj
          simp [BitVec.getLsbD_ushiftRight]
          congr 1; omega
      · rw [wireValue, flaggedByte_toNat_mod, hval, shift_chunk_toNat]
        simp [lowChunk, Nat.mod_add_div]

end Sys2Proof.Machine
end

