-- ==== Sys2Proof/Laws/Record.lean ====
section
/-! SUPPORT. Fields of a packed record: what is placed is read back, and disjoint fields do not meet. -/

namespace Sys2Proof

theorem fieldAt_or (v w : RequestWord) (lo n : Nat) : fieldAt (v ||| w) lo n = fieldAt v lo n ||| fieldAt w lo n := by
  ext j hj
  simp [fieldAt]

theorem fieldAt_placeAt {n : Nat} (lo : Nat) (v : BitVec n) (h : lo + n ≤ 280) : fieldAt (placeAt lo v) lo n = v := by
  ext j hj
  simp [fieldAt, placeAt, Config.recordWidth, show lo + j < 280 by omega, hj]

theorem fieldAt_placeAt_disjoint {m : Nat} (lo : Nat) (v : BitVec m) (lo' n : Nat) (h : lo' + n ≤ lo ∨ lo + m ≤ lo') :
    fieldAt (placeAt lo v) lo' n = 0 := by
  ext j hj
  simp only [fieldAt, placeAt, BitVec.getElem_extractLsb', BitVec.getLsbD_shiftLeft, BitVec.getLsbD_setWidth,
    BitVec.getElem_zero, BitVec.ofNat_eq_ofNat]
  rcases h with h | h
  · simp [show lo' + j < lo by omega]
  · simp [BitVec.getLsbD_of_ge v (lo' + j - lo) (by omega)]

theorem fieldAt_zero (lo n : Nat) : fieldAt 0 lo n = 0 := by
  ext j hj
  simp [fieldAt]

theorem fieldAt_placeBytes_below (bytes : List Byte) (lo lo' n : Nat) (h : lo' + n ≤ lo) :
    fieldAt (placeBytes lo bytes) lo' n = 0 := by
  induction bytes generalizing lo with
  | nil => exact fieldAt_zero _ _
  | cons b bytes ih =>
    rw [placeBytes, fieldAt_or, fieldAt_placeAt_disjoint _ _ _ _ (.inl h), ih (lo + 8) (by omega)]
    simp

theorem fieldAt_placeBytes (bytes : List Byte) (lo k : Nat) (hk : k < bytes.length) (h : lo + 8 * bytes.length ≤ 280) :
    fieldAt (placeBytes lo bytes) (lo + 8 * k) 8 = bytes[k] := by
  induction bytes generalizing lo k with
  | nil => simp at hk
  | cons b bytes ih =>
    simp only [List.length_cons] at h hk
    rw [placeBytes, fieldAt_or]
    cases k with
    | zero =>
      rw [Nat.mul_zero, Nat.add_zero, fieldAt_placeAt _ _ (by omega), fieldAt_placeBytes_below _ _ _ _ (le_refl _)]
      simp
    | succ k =>
      rw [fieldAt_placeAt_disjoint _ _ _ _ (.inr (by omega)), show lo + 8 * (k + 1) = lo + 8 + 8 * k by omega,
        ih (lo + 8) k (by omega) (by omega)]
      simp

theorem bufferAt_length (w : RequestWord) : (bufferAt w).length = 10 := by simp [bufferAt]

theorem bufferAt_getElem? (w : RequestWord) (k : Nat) (hk : k < 10) :
    (bufferAt w)[k]? = some (w.extractLsb' (200 + 8 * k) 8) := by
  simp [bufferAt, fieldAt, hk]

/-- A buffer is what stands at its ten places. -/
theorem bufferAt_eq (w : RequestWord) (bytes : List Byte) (hlen : bytes.length = 10)
    (h : ∀ (k : Nat) (hk : k < bytes.length), fieldAt w (200 + 8 * k) 8 = bytes[k]) : bufferAt w = bytes := by
  apply List.ext_getElem
  · rw [bufferAt_length, hlen]
  · intro k h1 h2
    simpa [bufferAt] using h k h2

/-- The record a packed request is read back as, when its buffer has its ten bytes (R24, R58). -/
theorem unpack_packRequest (q : Request) (h : q.ibuf.length = 10) : unpackRequest (packRequest q) = q := by
  have hb : bufferAt (packRequest q) = q.ibuf := by
    refine bufferAt_eq _ _ h fun k hk => ?_
    simp only [packRequest, fieldAt_or, fieldAt_placeBytes _ 200 _ hk (by omega)]
    simp (disch := omega) [fieldAt_placeAt_disjoint]
  cases q
  simp only [unpackRequest, hb]
  simp [packRequest, fieldAt_or, fieldAt_placeAt, fieldAt_placeAt_disjoint, fieldAt_placeBytes_below]

theorem getLsbD_fieldAt (w : RequestWord) (lo n j : Nat) (h1 : lo ≤ j) (h2 : j < lo + n) :
    (fieldAt w lo n).getLsbD (j - lo) = w.getLsbD j := by
  simp only [fieldAt, BitVec.getLsbD_extractLsb', Nat.add_sub_cancel' h1]
  simp only [show j - lo < n by omega, decide_true, Bool.true_and]

/-- The fields of R58 leave no bit out: two requests with the same fields are the same. -/
theorem eq_of_unpackRequest {v w : RequestWord} (h : unpackRequest v = unpackRequest w) : v = w := by
  simp only [unpackRequest, Request.mk.injEq] at h
  obtain ⟨op, reserved, ilen, a, b, c, ibuf⟩ := h
  have same : ∀ {lo n : Nat}, fieldAt v lo n = fieldAt w lo n → ∀ j, lo ≤ j → j < lo + n → v.getLsbD j = w.getLsbD j :=
    fun e j h1 h2 => by rw [← getLsbD_fieldAt v _ _ j h1 h2, e, getLsbD_fieldAt w _ _ j h1 h2]
  refine BitVec.eq_of_getLsbD_eq fun j (hj : j < 280) => ?_
  by_cases h3 : j < 3
  · exact same op j (by omega) (by omega)
  by_cases h4 : j < 4
  · exact same reserved j (by omega) (by omega)
  by_cases h8 : j < 8
  · exact same ilen j (by omega) (by omega)
  by_cases h72 : j < 72
  · exact same a j (by omega) (by omega)
  by_cases h136 : j < 136
  · exact same b j (by omega) (by omega)
  by_cases h200 : j < 200
  · exact same c j (by omega) (by omega)
  · have hk : (j - 200) / 8 < 10 := by omega
    have byte : (bufferAt v)[(j - 200) / 8]? = (bufferAt w)[(j - 200) / 8]? := by rw [ibuf]
    rw [bufferAt_getElem? v _ hk, bufferAt_getElem? w _ hk, Option.some.injEq] at byte
    exact same byte j (by omega) (by omega)

end Sys2Proof
end

