-- ==== Sys2Proof/Laws/PerInstr.lean ====
section
/-! SUPPORT. The family of LAWS.json: the header of every encoded instruction (30_encoding.md R58, R60). -/

namespace Sys2Proof.Laws.EncodedHeader

/-- The request an instruction is encoded as has its op code at bits 2:0, and the reserved bit 3 is written 0. -/
def Statement (i : Instr) : Prop := fieldAt (encode i) 0 3 = opCode i ∧ fieldAt (encode i) 3 1 = 0

theorem of_request (i : Instr) (hop : (requestOf i).op = opCode i) (hres : (requestOf i).reserved = 0) : Statement i := by
  simp [Statement, encode, packRequest, fieldAt_or, fieldAt_placeAt, fieldAt_placeAt_disjoint, fieldAt_placeBytes_below,
    hop, hres]

theorem varintEnc (a : Word) : Statement (.varintEnc a) := of_request _ rfl rfl
theorem varintDec (ibuf : List Byte) (ilen : BitVec 4) : Statement (.varintDec ibuf ilen) := of_request _ rfl rfl
theorem varlongEnc (a : Word) : Statement (.varlongEnc a) := of_request _ rfl rfl
theorem varlongDec (ibuf : List Byte) (ilen : BitVec 4) : Statement (.varlongDec ibuf ilen) := of_request _ rfl rfl
theorem posEnc (a b c : Word) : Statement (.posEnc a b c) := of_request _ rfl rfl
theorem posDec (a : Word) : Statement (.posDec a) := of_request _ rfl rfl

end Sys2Proof.Laws.EncodedHeader
end

