-- ==== Sys2Proof/Laws/Step.lean ====
section
/-! SUPPORT. What a step can do: idle, or give one response whose defined fields are a function of the request alone. -/

namespace Sys2Proof.Machine

/-- The answer each decoded request gets (R26: "resp = Op(req)"). -/
def answerOf : Except Reject Instr → Answer
  | .ok (.varintEnc a) => encoderAnswer (encodeChunks Config.intMaxBytes (intOperand a))
  | .ok (.varintDec ibuf ilen) =>
    decoderAnswer (decodeChunks ibuf ilen Config.intMaxBytes 0 (0 : BitVec Config.intWidth))
  | .ok (.varlongEnc a) => encoderAnswer (encodeChunks Config.longMaxBytes a)
  | .ok (.varlongDec ibuf ilen) =>
    decoderAnswer (decodeChunks ibuf ilen Config.longMaxBytes 0 (0 : BitVec Config.longWidth))
  | .ok (.posEnc a b c) => { bareAnswer .ok with r0 := some (positionWord a b c) }
  | .ok (.posDec a) =>
    { bareAnswer .ok with r0 := some (positionX a), r1 := some (positionY a), r2 := some (positionZ a) }
  | .error _ => errorAnswer .illegalOp

theorem exec_respond (i : Instr) (s : State) : exec i s = .next (s.respond (answerOf (.ok i))) := by
  cases i <;> rfl

theorem step_idle {s : State} (h : s.requests = []) : step s = .next s := by
  rw [step, takeRequest_nil h]

/-- The inversion of a step on a request in flight. -/
theorem step_respond {s : State} {w : RequestWord} {rest : List RequestWord} (h : s.requests = w :: rest) :
    step s = .next (State.respond (answerOf (decode w)) { s with requests := rest }) := by
  rw [step, takeRequest_cons h]
  cases hd : decode w with
  | ok i => simp only [hd]; exact exec_respond i _
  | error why => simp only [hd]; cases why; rfl

theorem run_zero (s : State) : Sys2Proof.core.run 0 s = .next s := rfl

/-- A run goes on from the state a step answers. -/
theorem run_succ {s t : State} (k : Nat) (h : step s = .next t) : Sys2Proof.core.run (k + 1) s = Sys2Proof.core.run k t := by
  have h' : Sys2Proof.core.step s = .next t := h
  simp only [Host.Core.run, h']

/-- An encoder's answer for a value that fits its room (R48, R49). -/
theorem encoderAnswer_ok {w : Nat} (room : Nat) (u : BitVec w) (h : u.toNat < 128 ^ (room + 1)) :
    ∃ bytes, encoderAnswer (encodeChunks (room + 1) u) =
        { bareAnswer .ok with bytes := bytes, cnt := some (BitVec.ofNat 4 bytes.length) } ∧
      bytes.length = encodedLength u.toNat ∧ 1 ≤ bytes.length ∧ bytes.length ≤ room + 1 ∧
      (∀ k < bytes.length, bytes[k]? = some (encodedByte u bytes.length k)) ∧ wireValue bytes = u.toNat := by
  obtain ⟨bytes, hok, hlen, hle, hbytes, hval⟩ := encodeChunks_ok room u h
  refine ⟨bytes, by rw [hok]; rfl, hlen, ?_, hle, hbytes, hval⟩
  rw [hlen]; unfold encodedLength bitLength; split <;> omega

theorem intOperand_lt (a : Word) : (intOperand a).toNat < 128 ^ 5 :=
  lt_trans (intOperand a).isLt (by norm_num)

theorem word_lt (a : Word) : a.toNat < 128 ^ 10 := lt_trans a.isLt (by norm_num)

/-- The defined part of a driven response is its answer, whatever was drawn: R27 read back from R28. -/
theorem definedPart_drive (d : Except Reject Instr) (n : Nat) :
    definedPart d (driveResponse n (answerOf d)) = answerOf d := by
  rcases d with why | i
  · rfl
  · cases i with
    | varintEnc a =>
      obtain ⟨bytes, h, -, -, hle, -⟩ := encoderAnswer_ok 4 (intOperand a) (intOperand_lt a)
      show definedPart _ (driveResponse n (encoderAnswer _)) = encoderAnswer _
      rw [h]
      simp [definedPart, driveResponse, bareAnswer, Nat.mod_eq_of_lt (show bytes.length < 16 by omega)]
    | varlongEnc a =>
      obtain ⟨bytes, h, -, -, hle, -⟩ := encoderAnswer_ok 9 a (word_lt a)
      show definedPart _ (driveResponse n (encoderAnswer _)) = encoderAnswer _
      rw [h]
      simp [definedPart, driveResponse, bareAnswer, Nat.mod_eq_of_lt (show bytes.length < 16 by omega)]
    | varintDec ibuf ilen =>
      show definedPart _ (driveResponse n (decoderAnswer _)) = decoderAnswer _
      cases decodeChunks ibuf ilen Config.intMaxBytes 0 (0 : BitVec Config.intWidth) <;> rfl
    | varlongDec ibuf ilen =>
      show definedPart _ (driveResponse n (decoderAnswer _)) = decoderAnswer _
      cases decodeChunks ibuf ilen Config.longMaxBytes 0 (0 : BitVec Config.longWidth) <;> rfl
    | posEnc a b c => rfl
    | posDec a => rfl

end Sys2Proof.Machine
end

