-- ==== Sys2Proof/Tests/Slice0.lean ====
section
/-! SUPPORT. Small tests, each against a vector of 95_test_vectors.md or a word written out from 30_encoding.md R58, and for
every statement with hypotheses a witness that meets them. -/

namespace Sys2Proof.Tests

open Sys2Proof Sys2Proof.Machine

/-! ## WellFormed: one ill-formed term for each check -/

theorem test_nine_byte_buffer_is_ill_formed : (Instr.varintDec (List.replicate 9 0) 0).wellFormed = false := by decide
theorem test_eleven_byte_buffer_is_ill_formed : (Instr.varlongDec (List.replicate 11 0) 0).wellFormed = false := by decide
theorem test_ten_byte_buffer_is_well_formed : (Instr.varlongDec (List.replicate 10 0) 15).wellFormed = true := by decide
theorem test_eleven_listed_bytes_are_ill_formed :
    (Transaction.varintDec (List.replicate 11 0) none).wellFormed = false := by decide
theorem test_written_ilen_16_is_ill_formed : (Transaction.varlongDec [] (some 16)).wellFormed = false := by decide

/-! ## Decode: a word written out from R58 for every constructor, and the reserved codes -/

theorem test_decode_varintEnc : decodeTableWord 280 0x63DD00 = some (.varintEnc 25565) := by decide
theorem test_decode_varintDec :
    decodeTableWord 280 0x01C7DD00000000000000000000000000000000000000000000000031 =
      some (.varintDec [0xDD, 0xC7, 0x01, 0, 0, 0, 0, 0, 0, 0] 3) := by decide
theorem test_decode_varlongEnc : decodeTableWord 280 0xFFFFFFFF8000000002 = some (.varlongEnc 0xFFFFFFFF80000000) := by
  decide
theorem test_decode_varlongDec :
    decodeTableWord 280 0x01FFFFFFFFF880808080000000000000000000000000000000000000000000000000A3 =
      some (.varlongDec [0x80, 0x80, 0x80, 0x80, 0xF8, 0xFF, 0xFF, 0xFF, 0xFF, 0x01] 10) := by decide
theorem test_decode_posEnc :
    decodeTableWord 280 0xFFFFFFFFFEC15B48000000000000033F0000000001181D8C04 =
      some (.posEnc 0x1181D8C 0x33F 0xFFFFFFFFFEC15B48) := by decide
theorem test_decode_posDec : decodeTableWord 280 0x4607632C15B4833F05 = some (.posDec 0x4607632C15B4833F) := by decide
/-- K3: request bit 3 set. -/
theorem test_decode_ignores_bit_3 : decodeTableWord 280 0x108 = some (.varintEnc 1) := by decide
/-- K1, K2. -/
theorem test_reserved_ops_are_rejected : decodeTableWord 8 0x06 = none ∧ decodeTableWord 280 0x517 = none := by decide

/-! ## One step on a small state -/

/-- The first response pending after an outcome. -/
def firstResponse : Host.Outcome State Fault Refusal → Option Response
  | .next t => t.responses.head?
  | .fault _ => none
  | .refused _ => none

/-- Status, `cnt` and the bytes a host takes. -/
def emitted (o : Host.Outcome State Fault Refusal) : Option (Status × BitVec 4 × List Byte) :=
  (firstResponse o).map fun r => (r.status, r.cnt, takenBytes r)

/-- Status, `r0` and `cnt`. -/
def decoded (o : Host.Outcome State Fault Refusal) : Option (Status × Word × BitVec 4) :=
  (firstResponse o).map fun r => (r.status, r.r0, r.cnt)

/-- Status and `cnt`: all an error response defines (R103). -/
def failed (o : Host.Outcome State Fault Refusal) : Option (Status × BitVec 4) :=
  (firstResponse o).map fun r => (r.status, r.cnt)

/-- V17: the minimum. -/
theorem test_varintEnc_minimum : emitted (exec (.varintEnc 0xFFFFFFFF80000000) State.reset) =
    some (.ok, 5, [0x80, 0x80, 0x80, 0x80, 0x08]) := by decide
/-- V18: `a[63:32]` is ignored. -/
theorem test_varintEnc_high_half : emitted (exec (.varintEnc 0x100000001) State.reset) = some (.ok, 1, [0x01]) := by decide
/-- W11: the negation of 0x80000000 is itself. -/
theorem test_varintDec_negation :
    decoded (exec (.varintDec [0x80, 0x80, 0x80, 0x80, 0x88, 0, 0, 0, 0, 0] 5) State.reset) =
      some (.ok, 0xFFFFFFFF80000000, 5) := by decide
/-- W7: P[6:4] of byte 5 are discarded. -/
theorem test_varintDec_discarded_bits :
    decoded (exec (.varintDec [0xFF, 0xFF, 0xFF, 0xFF, 0x70, 0, 0, 0, 0, 0] 5) State.reset) =
      some (.ok, 0x0FFFFFFF, 5) := by decide
/-- X16. -/
theorem test_varlongEnc_negative : emitted (exec (.varlongEnc 0xFFFFFFFF80000000) State.reset) =
    some (.ok, 10, [0x80, 0x80, 0x80, 0x80, 0xF8, 0xFF, 0xFF, 0xFF, 0xFF, 0x01]) := by decide
/-- X13: the maximum takes 9 bytes. -/
theorem test_varlongEnc_maximum : emitted (exec (.varlongEnc 0x7FFFFFFFFFFFFFFF) State.reset) =
    some (.ok, 9, [0xFF, 0xFF, 0xFF, 0xFF, 0xFF, 0xFF, 0xFF, 0xFF, 0x7F]) := by decide
/-- S15x: the literal of the source, by the negation path. -/
theorem test_varlongDec_negation :
    decoded (exec (.varlongDec [0x80, 0x80, 0x80, 0x80, 0x80, 0x80, 0x80, 0x80, 0xF8, 0xFF] 10) State.reset) =
      some (.ok, 0x0800000000000000, 10) := by decide
/-- Y9: nine flagged bytes, then the end. -/
theorem test_varlongDec_truncated :
    failed (exec (.varlongDec [0xFF, 0xFF, 0xFF, 0xFF, 0xFF, 0xFF, 0xFF, 0xFF, 0xFF, 0] 9) State.reset) =
      some (.error .truncated, 0) := by decide
/-- Z11: x and y negative. -/
theorem test_posEnc_negative :
    (firstResponse (exec (.posEnc (BitVec.ofInt 64 (-18357644)) (BitVec.ofInt 64 (-64)) 7) State.reset)).map
      (fun r => (r.status, r.r0)) = some (.ok, 0xB9F89D0000007FC0) := by decide
/-- Z6: x = 2^25 wraps. -/
theorem test_posEnc_wraps : (firstResponse (exec (.posEnc 33554432 0 0) State.reset)).map (fun r => (r.status, r.r0)) =
    some (.ok, 0x8000000000000000) := by decide
/-- Q9 and Q8. -/
theorem test_posDec_sign : (firstResponse (exec (.posDec 0xB9F89D0000007FC0) State.reset)).map
    (fun r => (r.status, r.r0, r.r1, r.r2)) = some (.ok, BitVec.ofInt 64 (-18357644), 4032, 7) := by decide
theorem test_posDec_z_unsigned : (firstResponse (exec (.posDec 0x4607632C15B4833F) State.reset)).map
    (fun r => (r.status, r.r0, r.r1, r.r2)) = some (.ok, 18357644, 831, 46226248) := by decide
/-- K2: the op check comes first. -/
theorem test_step_reserved : failed (step (State.reset.withFetchWord 280 0x517)) = some (.error .illegalOp, 0) := by decide
/-- W17 as a step: `ilen` cuts a valid value. -/
theorem test_step_truncated :
    failed (step (State.reset.withFetchWord 280 0x018000000000000000000000000000000000000000000000000011)) =
      some (.error .truncated, 0) := by decide
/-- The response word of V1 but for what it leaves unspecified: status, reserved bits and `cnt` (R59). -/
theorem test_packed_header : (firstResponse (exec (.varintEnc 0) State.reset)).map
    (fun r => fieldAt (packResponse { r with r0 := 0, r1 := 0, r2 := 0, obuf := [] }) 0 8) = some 0x10 := by decide

/-! ## Witnesses: states and operands that meet the hypotheses of the statements -/

/-- A state with these requests in flight. -/
def inFlight (ws : List RequestWord) : State := { State.reset with requests := ws }

/-- `VARINT_DEC ilen=0`: a request that fails (W15). -/
def failing : RequestWord := requestOfTableWord 280 0x01

theorem decode_failing : decode failing = .ok (.varintDec (List.replicate 10 0) 0) := by decide

theorem witness_DecodeOfEncodeIsIdentity :
    (Instr.varintDec (List.replicate 10 0xFF) 15).wellFormed = true ∧ (Instr.posEnc 1 2 3).wellFormed = true := by decide
theorem witness_EncodeOfDecodeKeepsOperandBits :
    decode (requestOfTableWord 280 0xF1) = .ok (.varintDec (List.replicate 10 0) 15) := by decide
theorem witness_OpBitsAloneSelectTheOperation :
    (requestOfTableWord 280 0x08).extractLsb' 0 3 = 0b000 ∧ (requestOfTableWord 280 0x09).extractLsb' 0 3 = 0b001 ∧
    (requestOfTableWord 280 0x0A).extractLsb' 0 3 = 0b010 ∧ (requestOfTableWord 280 0x0B).extractLsb' 0 3 = 0b011 ∧
    (requestOfTableWord 280 0x0C).extractLsb' 0 3 = 0b100 ∧ (requestOfTableWord 280 0x0D).extractLsb' 0 3 = 0b101 ∧
    (requestOfTableWord 280 0x0E).extractLsb' 0 3 = 0b110 ∧ (requestOfTableWord 280 0x0F).extractLsb' 0 3 = 0b111 := by
  decide
theorem witness_PackedResponseHasTheLayout :
    (Response.mk (.error .illegalOp) 1 2 3 (List.replicate 10 0xFF) 0).obuf.length = 10 := by decide
theorem witness_WrittenTransactionIsItsInstruction :
    (Transaction.varintDec (List.replicate 10 0) (some 15)).wellFormed = true ∧
    (Transaction.varlongDec [] none).wellFormed = true := by decide
theorem witness_StepRunsTheDecodedRequest :
    (inFlight [failing]).requests = failing :: [] ∧ decode failing = .ok (.varintDec (List.replicate 10 0) 0) := by decide
theorem witness_ReservedOpIsAnsweredIllegal :
    (inFlight [requestOfTableWord 280 6]).requests = requestOfTableWord 280 6 :: [] ∧
    (requestOfTableWord 280 6).extractLsb' 0 3 = 6 ∧ (requestOfTableWord 280 7).extractLsb' 0 3 = 7 := by decide
theorem witness_NothingHappensWithoutARequest : State.reset.requests = [] := rfl
theorem witness_ResponseDependsOnItsRequestAlone :
    (inFlight [failing]).requests = failing :: [] ∧
    (inFlight [failing, failing]).requests = failing :: [failing] := by decide
theorem witness_ErrorsLeaveNothingBehind : ∃ (s t : State) (r : Response) (e : ErrorKind),
    s.requests = failing :: [failing] ∧ step s = .next t ∧ Answered { s with requests := [failing] } t r ∧
    r.status = .error e :=
  ⟨inFlight [failing, failing], _, _, .truncated, rfl, step_respond rfl, answered_respond _ _, by
    rw [decode_failing]; rfl⟩
theorem witness_RequestsAreCollectedFirstInFirstOut : State.reset.requests = [] ∧ State.reset.responses = [] := ⟨rfl, rfl⟩
theorem witness_EveryStepKeepsTheInterfaceLegal : ∃ s t : State, s.requests ≠ [] ∧ s.Inv ∧ step s = .next t :=
  ⟨inFlight [failing], _, by simp [inFlight], by simp [State.Inv, inFlight, State.reset], step_respond rfl⟩
theorem witness_ResetEmptiesTheInterface : (inFlight [failing, failing]).requests = failing :: [failing] := rfl

/-- Every row of R50 at both ends. -/
theorem witness_VarintLengthBySignedValue :
    ((0 : Word).setWidth 32).toInt = 0 ∧ ((127 : Word).setWidth 32).toInt = 127 ∧ ((128 : Word).setWidth 32).toInt = 128 ∧
    ((16383 : Word).setWidth 32).toInt = 16383 ∧ ((16384 : Word).setWidth 32).toInt = 16384 ∧
    ((2097151 : Word).setWidth 32).toInt = 2097151 ∧ ((2097152 : Word).setWidth 32).toInt = 2097152 ∧
    ((268435455 : Word).setWidth 32).toInt = 268435455 ∧ ((268435456 : Word).setWidth 32).toInt = 268435456 ∧
    ((2147483647 : Word).setWidth 32).toInt = 2147483647 ∧ ((0x80000000 : Word).setWidth 32).toInt = -2147483648 ∧
    ((0xFFFFFFFF : Word).setWidth 32).toInt = -1 := by decide
/-- R51: k = 1, k = 9 and a negative value, at both ends. -/
theorem witness_VarlongLengthBySignedValue :
    (0 : Word).toInt = 0 ∧ (127 : Word).toInt = 2 ^ (7 * 1) - 1 ∧ (128 : Word).toInt = 2 ^ (7 * (2 - 1)) ∧
    (72057594037927936 : Word).toInt = 2 ^ (7 * (9 - 1)) ∧ (0x7FFFFFFFFFFFFFFF : Word).toInt = 2 ^ (7 * 9) - 1 ∧
    (0x8000000000000000 : Word).toInt = -9223372036854775808 ∧ (0xFFFFFFFFFFFFFFFF : Word).toInt < 0 := by decide
theorem witness_VarintEncIgnoresTheHighHalf :
    (0x100000001 : Word).setWidth 32 = (1 : Word).setWidth 32 ∧ (0x100000001 : Word) ≠ 1 := by decide

/-- Byte 0 terminates with `ilen = 1`; byte 4 terminates with `ilen = 5`. -/
theorem witness_VarintDecStopsAtTheTerminatingByte :
    (0 < (1 : BitVec 4).toNat ∧ flaggedBelow [0x7F] 0 ∧ (memRead [0x7F] 0).getLsbD 7 = false) ∧
    (4 < (5 : BitVec 4).toNat ∧ flaggedBelow [0x80, 0x80, 0x80, 0x80, 0x08] 4 ∧
      (memRead [0x80, 0x80, 0x80, 0x80, 0x08] 4).getLsbD 7 = false) := by
  unfold flaggedBelow; decide
theorem witness_VarintDecNegatesWhenTheFifthByteIsFlagged :
    5 ≤ (5 : BitVec 4).toNat ∧ flaggedBelow [0xFF, 0xFF, 0xFF, 0xFF, 0xFF] 5 := by
  unfold flaggedBelow; decide
theorem witness_VarlongDecStopsAtTheTerminatingByte :
    (0 < (1 : BitVec 4).toNat ∧ flaggedBelow [0x7F] 0 ∧ (memRead [0x7F] 0).getLsbD 7 = false) ∧
    (9 < (10 : BitVec 4).toNat ∧ flaggedBelow (List.replicate 9 0x80 ++ [0x01]) 9 ∧
      (memRead (List.replicate 9 0x80 ++ [0x01]) 9).getLsbD 7 = false) := by
  unfold flaggedBelow; decide
theorem witness_VarlongDecNegatesWhenTheTenthByteIsFlagged :
    10 ≤ (10 : BitVec 4).toNat ∧ flaggedBelow (List.replicate 10 0xFF) 10 := by
  unfold flaggedBelow; decide
/-- Buffers that differ, after the terminating byte and beyond `ilen`. -/
theorem witness_UnreadInputBytesHaveNoEffect :
    (∀ k < 10, k < (2 : BitVec 4).toNat → flaggedBelow [0x01, 0xFF] k → memRead [0x01, 0xFF] k = memRead [0x01, 0x00, 0x05] k) ∧
    ([0x01, 0xFF] : List Byte) ≠ [0x01, 0x00, 0x05] := by
  unfold flaggedBelow; decide
theorem witness_FullBufferLengthsBehaveAlike : 10 ≤ (10 : BitVec 4).toNat ∧ 10 ≤ (15 : BitVec 4).toNat := by decide
theorem witness_VarintAndVarlongDifferOnNegatives :
    0 ≤ (0 : BitVec 32).toInt ∧ 0 ≤ (0x7FFFFFFF : BitVec 32).toInt ∧ (0xFFFFFFFF : BitVec 32).toInt < 0 ∧
    (0x80000000 : BitVec 32).toInt < 0 := by decide
theorem witness_PosEncMasksItsInputs :
    (67108869 : Word).extractLsb' 0 26 = (5 : Word).extractLsb' 0 26 ∧
    (4096 : Word).extractLsb' 0 12 = (0 : Word).extractLsb' 0 12 ∧
    (0xFFFFFFFFFFFFFFFF : Word).extractLsb' 0 26 = (67108863 : Word).extractLsb' 0 26 := by decide
/-- Each range at both ends. -/
theorem witness_NegativeCoordinatesComeBackAsymmetrically :
    -2 ^ 25 ≤ (BitVec.ofInt 64 (-33554432)).toInt ∧ (BitVec.ofInt 64 (-1)).toInt < 0 ∧
    -2 ^ 12 ≤ (BitVec.ofInt 64 (-4096)).toInt ∧ (BitVec.ofInt 64 (-4096)).toInt < 0 ∧
    -2 ^ 26 ≤ (BitVec.ofInt 64 (-67108864)).toInt ∧ (BitVec.ofInt 64 (-67108864)).toInt < 0 ∧
    (BitVec.ofInt 64 (-33554432)).toInt < 0 ∧ -2 ^ 12 ≤ (BitVec.ofInt 64 (-1)).toInt := by decide

end Sys2Proof.Tests
end

section
/-! PROOFS. The interface as a whole (10_state.md): what a legal answer is and that every request gets one, what any number
of steps does, and the statements about steps, order and the interface invariant. -/

namespace Sys2Proof.Machine

/-! ### Legal answers -/

/-- What makes an answer a legal response, whatever is drawn for the rest: its bytes fit `obuf` (R25), an error defines
`cnt = 0` (R103), and it is never OVERFLOW (R67, R80). -/
def legalAnswer (a : Answer) : Prop :=
  a.bytes.length ≤ Config.bufferBytes ∧ (a.status ≠ .ok → a.cnt = some 0) ∧ a.status ≠ .error .overflow

theorem legalResponse_drive (n : Nat) {a : Answer} (h : legalAnswer a) : legalResponse (driveResponse n a) := by
  obtain ⟨hbytes, hcnt, hstatus⟩ := h
  exact ⟨drive_obuf_length n hbytes, fun hne => drive_cnt n (hcnt hne), hstatus⟩

/-- An OK answer is legal as soon as its bytes fit. -/
theorem legal_of_ok {a : Answer} (hok : a.status = .ok) (hbytes : a.bytes.length ≤ Config.bufferBytes) :
    legalAnswer a :=
  ⟨hbytes, fun hne => absurd hok hne, by simp [hok]⟩

theorem legal_errorAnswer {e : ErrorKind} (he : e ≠ .overflow) : legalAnswer (errorAnswer e) :=
  ⟨Nat.zero_le _, fun _ => rfl, fun h => he (Status.error.inj h)⟩

/-- An encoder whose value fits its room answers legally: OverflowError is unreachable (R67, R80). -/
theorem legal_encoderAnswer {w : Nat} (room : Nat) (u : BitVec w) (hu : u.toNat < 128 ^ (room + 1))
    (hroom : room < Config.bufferBytes) : legalAnswer (encoderAnswer (encodeChunks (room + 1) u)) := by
  obtain ⟨bytes, hanswer, -, -, hle, -⟩ := encoderAnswer_ok room u hu
  rw [hanswer]
  exact legal_of_ok rfl (le_trans hle hroom)

/-- The only error of a decoder is TruncatedInputError (R74, R86). -/
theorem decodeChunks_error {w : Nat} {ibuf : List Byte} {ilen : BitVec 4} {room i : Nat} {acc : BitVec w} {e : ErrorKind}
    (h : decodeChunks ibuf ilen room i acc = .error e) : e = .truncated := by
  induction room generalizing i acc with
  | zero => cases h
  | succ room ih =>
    rw [decodeChunks] at h
    split at h
    · split at h
      · exact ih h
      · cases h
    · cases h; rfl

theorem legal_decoderAnswer {w : Nat} (ibuf : List Byte) (ilen : BitVec 4) (room i : Nat) (acc : BitVec w) :
    legalAnswer (decoderAnswer (decodeChunks ibuf ilen room i acc)) := by
  cases hd : decodeChunks ibuf ilen room i acc with
  | ok result => exact legal_of_ok rfl (Nat.zero_le _)
  | error e => exact legal_errorAnswer (by simp [decodeChunks_error hd])

/-- Every request, reserved ones included, gets a legal answer. -/
theorem legal_answerOf (d : Except Reject Instr) : legalAnswer (answerOf d) := by
  rcases d with why | i
  · exact legal_errorAnswer (by decide)
  · cases i with
    | varintEnc a => exact legal_encoderAnswer 4 (intOperand a) (intOperand_lt a) (by decide)
    | varintDec ibuf ilen => exact legal_decoderAnswer ..
    | varlongEnc a => exact legal_encoderAnswer 9 a (word_lt a) (by decide)
    | varlongDec ibuf ilen => exact legal_decoderAnswer ..
    | posEnc a b c => exact legal_of_ok rfl (Nat.zero_le _)
    | posDec a => exact legal_of_ok rfl (Nat.zero_le _)

/-! ### One step -/

/-- The inversion of a step: it idles, or it takes the oldest request and answers it. -/
theorem step_cases {s t : State} (h : step s = .next t) :
    (s.requests = [] ∧ t = s) ∨
    ∃ w rest, s.requests = w :: rest ∧ t = State.respond (answerOf (decode w)) { s with requests := rest } := by
  cases hreq : s.requests with
  | nil =>
    rw [step_idle hreq] at h
    exact .inl ⟨rfl, (Host.Outcome.next.inj h).symm⟩
  | cons w rest =>
    rw [step_respond hreq] at h
    exact .inr ⟨w, rest, rfl, (Host.Outcome.next.inj h).symm⟩

/-- The invariant does not speak of the requests in flight. -/
theorem inv_with_requests {s : State} (hs : s.Inv) (ws : List RequestWord) : State.Inv { s with requests := ws } := hs

theorem respond_keeps_inv {s : State} {a : Answer} (hs : s.Inv) (ha : legalAnswer a) : (s.respond a).Inv := by
  obtain ⟨hlegal, hindex⟩ := hs
  refine ⟨fun r hr => ?_, by simpa using hindex⟩
  rw [respond_responses, List.mem_append, List.mem_singleton] at hr
  rcases hr with hr | rfl
  · exact hlegal r hr
  · exact legalResponse_drive _ ha

/-- Settles O16: a step idles, or gives one legal response and advances the index with it. -/
theorem everyStepKeepsTheInterfaceLegal : Obligations.EveryStepKeepsTheInterfaceLegal := by
  intro s t hs hstep
  rcases step_cases hstep with ⟨-, rfl⟩ | ⟨w, rest, -, rfl⟩
  · exact hs
  · exact respond_keeps_inv (inv_with_requests hs rest) (legal_answerOf (decode w))

/-- Settles O7: both sides give the answer of the decoded request. -/
theorem stepRunsTheDecodedRequest : Obligations.StepRunsTheDecodedRequest := by
  intro s w rest i hreq hdecode
  rw [step_respond hreq, exec_respond, hdecode]

/-- Settles O10: giving a response is all that an instruction does. -/
theorem everyInstructionGivesOneResponse : Obligations.EveryInstructionGivesOneResponse :=
  fun i s => ⟨_, _, exec_respond i s, answered_respond _ s⟩

/-! ### Any number of steps -/

/-- The responses to the requests `ws`, in order, when the first of them takes the n-th draw. -/
def responsesTo (n : Nat) (ws : List RequestWord) : List Response :=
  ws.mapIdx fun k w => driveResponse (n + k) (answerOf (decode w))

@[simp] theorem responsesTo_nil (n : Nat) : responsesTo n [] = [] := rfl

@[simp] theorem responsesTo_cons (n : Nat) (w : RequestWord) (ws : List RequestWord) :
    responsesTo n (w :: ws) = driveResponse n (answerOf (decode w)) :: responsesTo (n + 1) ws := by
  simp [responsesTo, List.mapIdx_cons, Nat.add_assoc, Nat.add_comm 1]

@[simp] theorem responsesTo_length (n : Nat) (ws : List RequestWord) : (responsesTo n ws).length = ws.length := by
  simp [responsesTo]

theorem responsesTo_getElem? (n : Nat) {ws : List RequestWord} {k : Nat} {w : RequestWord} (h : ws[k]? = some w) :
    (responsesTo n ws)[k]? = some (driveResponse (n + k) (answerOf (decode w))) := by
  simp [responsesTo, h]

/-- The state after `n` steps: the oldest `n` requests, or all of them if there are fewer, are answered in order. -/
def State.afterSteps (n : Nat) (s : State) : State where
  requests := s.requests.drop n
  responses := s.responses ++ responsesTo s.draws (s.requests.take n)
  hostIndex := s.hostIndex + (s.requests.take n).length
  draws := s.draws + (s.requests.take n).length

theorem afterSteps_zero (s : State) : s.afterSteps 0 = s := by
  simp [State.afterSteps]

theorem afterSteps_idle {s : State} (n : Nat) (h : s.requests = []) : s.afterSteps n = s := by
  obtain ⟨requests, responses, hostIndex, draws⟩ := s
  obtain rfl : requests = [] := h
  simp [State.afterSteps]

/-- The first of `n + 1` steps answers the oldest request. -/
theorem afterSteps_succ {s : State} (n : Nat) {w : RequestWord} {rest : List RequestWord} (h : s.requests = w :: rest) :
    s.afterSteps (n + 1) = (State.respond (answerOf (decode w)) { s with requests := rest }).afterSteps n := by
  simp [State.afterSteps, h]
  omega

/-- A run never stops, and its state is known (R104, R121). -/
theorem run_eq_afterSteps (n : Nat) (s : State) : Sys2Proof.core.run n s = .next (s.afterSteps n) := by
  induction n generalizing s with
  | zero => rw [run_zero, afterSteps_zero]
  | succ n ih =>
    cases hreq : s.requests with
    | nil => rw [run_succ n (step_idle hreq), ih, afterSteps_idle _ hreq, afterSteps_idle _ hreq]
    | cons w rest => rw [run_succ n (step_respond hreq), ih, afterSteps_succ n hreq]

/-! ### Order of responses -/

/-- Whatever is drawn, the response to a request has the defined part the request gets alone right after reset (R26). -/
theorem definedPart_drive_eq_alone (w : RequestWord) (n : Nat) :
    ∃ u r', step { State.reset with requests := [w] } = .next u ∧ u.responses = [r'] ∧
      definedPart (decode w) (driveResponse n (answerOf (decode w))) = definedPart (decode w) r' :=
  ⟨_, driveResponse 0 (answerOf (decode w)), step_respond rfl, rfl, by rw [definedPart_drive, definedPart_drive]⟩

/-- Settles O14: the state after as many steps as there are requests, read field by field. -/
theorem runAnswersEveryRequestInOrder : Obligations.RunAnswersEveryRequestInOrder := by
  intro s
  refine ⟨s.afterSteps s.requests.length, responsesTo s.draws s.requests, run_eq_afterSteps _ s, ?_, ?_, ?_, ?_, ?_⟩
  · simp [State.afterSteps]
  · simp [State.afterSteps]
  · exact responsesTo_length _ _
  · simp [State.afterSteps]
  · intro k w r hw hr
    rw [responsesTo_getElem? _ hw, Option.some.injEq] at hr
    exact hr ▸ definedPart_drive_eq_alone w _

theorem collect_nil {s : State} (h : s.responses = []) : s.collect = none := by
  simp [State.collect, h]

theorem collect_cons {s : State} {r : Response} {rest : List Response} (h : s.responses = r :: rest) :
    s.collect = some (r, { s with responses := rest }) := by
  simp [State.collect, h]

/-- Settles O15: two requests are in flight, so O14 leaves their two responses pending in order, and collecting takes them
from the front. -/
theorem requestsAreCollectedFirstInFirstOut : Obligations.RequestsAreCollectedFirstInFirstOut := by
  intro s v w hreq hresp
  have hinflight : ((s.accept v).accept w).requests = [v, w] := by simp [hreq]
  obtain ⟨t, rs, hrun, -, hpending, hlen, -, halone⟩ := runAnswersEveryRequestInOrder ((s.accept v).accept w)
  rw [hinflight] at hrun hlen halone
  obtain ⟨r1, r2, rfl⟩ := List.length_eq_two.mp hlen
  have ht : t.responses = [r1, r2] := by simpa [hresp] using hpending
  exact ⟨t, _, _, r1, r2, hrun, collect_cons ht, collect_cons rfl, collect_nil rfl,
    halone 0 v r1 rfl rfl, halone 1 w r2 rfl rfl⟩

end Sys2Proof.Machine
end

section
/-! PROOFS. What a response does not depend on (10_state.md R26, 20_memory.md R31, R33, R34, R40): anything but its
request, the input bytes not read, the excess of `ilen`, and the operand bits an operation ignores. -/

namespace Sys2Proof.Machine

/-! ### Equal answers -/

/-- Whatever is drawn for the rest, equal answers have equal defined parts (R27). -/
theorem definedPart_drive_congr {d d' : Except Reject Instr} (h : answerOf d = answerOf d') (n n' : Nat) :
    definedPart d (driveResponse n (answerOf d)) = definedPart d' (driveResponse n' (answerOf d')) := by
  rw [definedPart_drive, definedPart_drive, h]

/-- Instructions with equal answers respond alike, each in a state of its own. -/
theorem exec_alike {i i' : Instr} (h : answerOf (.ok i) = answerOf (.ok i')) (s s' : State) :
    ∃ t r t' r', exec i s = .next t ∧ Answered s t r ∧ exec i' s' = .next t' ∧ Answered s' t' r' ∧
      definedPart (.ok i) r = definedPart (.ok i') r' :=
  ⟨_, _, _, _, exec_respond i s, answered_respond _ s, exec_respond i' s', answered_respond _ s',
    definedPart_drive_congr h _ _⟩

/-- Settles O12: both steps give the answer of the one request. -/
theorem responseDependsOnItsRequestAlone : Obligations.ResponseDependsOnItsRequestAlone := by
  intro s s' w rest rest' hreq hreq'
  exact ⟨_, _, _, _, step_respond hreq, answered_respond _ _, step_respond hreq', answered_respond _ _,
    definedPart_drive_congr rfl _ _⟩

/-! ### What a decoder reads -/

/-- A decoder sees its buffer and `ilen` only through which bytes are available and through the available bytes that no
terminating byte precedes. -/
theorem decodeChunks_congr {w : Nat} {ibuf ibuf' : List Byte} {ilen ilen' : BitVec 4} (room i : Nat) (acc : BitVec w)
    (hflag : flaggedBelow ibuf i) (havail : ∀ k < i + room, available ilen k = available ilen' k)
    (hbyte : ∀ k < i + room, k < ilen.toNat → flaggedBelow ibuf k → memRead ibuf k = memRead ibuf' k) :
    decodeChunks ibuf ilen room i acc = decodeChunks ibuf' ilen' room i acc := by
  induction room generalizing i acc with
  | zero => rfl
  | succ room ih =>
    have hi : i < i + (room + 1) := by omega
    rw [decodeChunks, decodeChunks, ← havail i hi]
    by_cases ha : available ilen i = true
    · rw [← hbyte i hi (of_decide_eq_true ha) hflag]
      by_cases hc : continues (memRead ibuf i) = true
      · rw [← Nat.succ_add_eq_add_succ] at havail hbyte
        simpa [ha, hc] using ih (i + 1) _ (flaggedBelow_succ hflag hc) havail hbyte
      · simp [ha, hc]
    · simp [ha]

/-- Buffers that agree on the bytes read are decoded alike (R33, R34). -/
theorem decodeChunks_congr_ibuf {w room : Nat} {ibuf ibuf' : List Byte} {ilen : BitVec 4} (acc : BitVec w)
    (h : ∀ k < room, k < ilen.toNat → flaggedBelow ibuf k → memRead ibuf k = memRead ibuf' k) :
    decodeChunks ibuf ilen room 0 acc = decodeChunks ibuf' ilen room 0 acc :=
  decodeChunks_congr room 0 acc (flaggedBelow_zero ibuf) (fun _ _ => rfl) (by rwa [Nat.zero_add])

theorem available_of_le {ilen : BitVec 4} {i : Nat} (hlen : Config.bufferBytes ≤ ilen.toNat)
    (hi : i < Config.bufferBytes) : available ilen i = true :=
  decide_eq_true (lt_of_lt_of_le hi hlen)

/-- All of the buffer is available at every `ilen` of ten or more (R31). -/
theorem decodeChunks_congr_ilen {w room : Nat} {ilen ilen' : BitVec 4} (ibuf : List Byte) (acc : BitVec w)
    (hroom : room ≤ Config.bufferBytes) (hlen : Config.bufferBytes ≤ ilen.toNat)
    (hlen' : Config.bufferBytes ≤ ilen'.toNat) :
    decodeChunks ibuf ilen room 0 acc = decodeChunks ibuf ilen' room 0 acc := by
  refine decodeChunks_congr room 0 acc (flaggedBelow_zero ibuf) (fun k hk => ?_) (fun _ _ _ _ => rfl)
  have hk' : k < Config.bufferBytes := by omega
  rw [available_of_le hlen hk', available_of_le hlen' hk']

/-- Settles O31: the decode loop gives the same result from both buffers, at either width. -/
theorem unreadInputBytesHaveNoEffect : Obligations.UnreadInputBytesHaveNoEffect := by
  intro ibuf ibuf' ilen s s'
  refine ⟨fun h => exec_alike ?_ s s', fun h => exec_alike ?_ s s'⟩
  · exact congrArg decoderAnswer (decodeChunks_congr_ibuf _ h)
  · exact congrArg decoderAnswer (decodeChunks_congr_ibuf _ h)

/-- Settles O32: the decode loop gives the same result at both lengths, at either width. -/
theorem fullBufferLengthsBehaveAlike : Obligations.FullBufferLengthsBehaveAlike := by
  intro ibuf ilen ilen' s s' hlen hlen'
  refine ⟨exec_alike ?_ s s', exec_alike ?_ s s'⟩
  · exact congrArg decoderAnswer (decodeChunks_congr_ilen ibuf _ (by decide) hlen hlen')
  · exact congrArg decoderAnswer (decodeChunks_congr_ilen ibuf _ (by decide) hlen hlen')

/-! ### What VARINT_ENC reads -/

theorem intOperand_eq_setWidth (a : Word) : intOperand a = a.setWidth 32 :=
  (BitVec.setWidth_eq_extractLsb' (by decide)).symm

/-- Settles O24: the encode loop starts from the same 32 bits. -/
theorem varintEncIgnoresTheHighHalf : Obligations.VarintEncIgnoresTheHighHalf := by
  intro a a' s s' hlow
  have hoperand : intOperand a = intOperand a' := by
    rw [intOperand_eq_setWidth, intOperand_eq_setWidth, hlow]
  exact exec_alike (by rw [answerOf, answerOf, hoperand]) s s'

end Sys2Proof.Machine
end

section
/-! PROOFS. The packed records and the written form (30_encoding.md R58 to R64): decode and encode are inverse on an
operation's own fields, a packed response has its layout, and `op` alone selects what a request is. -/

namespace Sys2Proof

/-! ### Decode after encode -/

/-- A packed record is decoded as the record. -/
theorem decode_packRequest {q : Request} (h : q.ibuf.length = 10) : decode (packRequest q) = decodeRequest q := by
  rw [decode, unpack_packRequest q h]

theorem requestOf_ibuf_length {i : Instr} (h : i.wellFormed = true) : (requestOf i).ibuf.length = 10 := by
  cases i with
  | varintDec ibuf ilen => exact beq_iff_eq.mp h
  | varlongDec ibuf ilen => exact beq_iff_eq.mp h
  | _ => rfl

/-- The record of an instruction is that instruction's and no other's (R60). -/
theorem decodeRequest_requestOf (i : Instr) : decodeRequest (requestOf i) = .ok i := by
  cases i <;> rfl

/-- Settles O1: the packed record is read back whole, and it selects its instruction. -/
theorem decodeOfEncodeIsIdentity : Obligations.DecodeOfEncodeIsIdentity := by
  intro i hwf
  rw [encode, decode_packRequest (requestOf_ibuf_length hwf), decodeRequest_requestOf]

/-! ### Encode after decode -/

/-- The record `q` with every field omitted (R64) but `op` and the fields the operation of `i` carries. -/
def keepOperands (i : Instr) (q : Request) : Request :=
  match i with
  | .varintEnc _ | .varlongEnc _ | .posDec _ => { emptyRequest q.op with a := q.a }
  | .varintDec _ _ | .varlongDec _ _ => { emptyRequest q.op with ibuf := q.ibuf, ilen := q.ilen }
  | .posEnc _ _ _ => { emptyRequest q.op with a := q.a, b := q.b, c := q.c }

/-- The inversion of operation select: what is decoded from a record carries that record's operands. -/
theorem decodeRequest_cases {q : Request} {i : Instr} (hlen : q.ibuf.length = 10) (h : decodeRequest q = .ok i) :
    i.wellFormed = true ∧ requestOf i = keepOperands i q := by
  have hop (n : Nat) (hn : q.op.toNat = n) : q.op = BitVec.ofNat 3 n := by simp [← hn]
  unfold decodeRequest at h
  split at h
  all_goals cases h
  all_goals simp [Instr.wellFormed, bufferOk, hlen, requestOf, opCode, keepOperands, hop _ ‹_›]

theorem fieldAt_and (v w : RequestWord) (lo n : Nat) : fieldAt (v &&& w) lo n = fieldAt v lo n &&& fieldAt w lo n := by
  ext j hj
  simp [fieldAt]

/-- A field inside a run of ones is all ones. -/
theorem fieldAt_placeAt_allOnes (lo m lo' n : Nat) (h1 : lo ≤ lo') (h2 : lo' + n ≤ lo + m) (h3 : lo + m ≤ 280) :
    fieldAt (placeAt lo (BitVec.allOnes m)) lo' n = BitVec.allOnes n := by
  ext j hj
  simp only [fieldAt, placeAt, BitVec.getElem_extractLsb', BitVec.getLsbD_shiftLeft, BitVec.getLsbD_setWidth,
    BitVec.getLsbD_allOnes, BitVec.getElem_allOnes, Config.recordWidth]
  simp; omega

/-- A mask of ones over the ten bytes keeps the buffer. -/
theorem bufferAt_and_of_ones (w : RequestWord) {m : RequestWord}
    (h : ∀ k < 10, fieldAt m (200 + 8 * k) 8 = BitVec.allOnes 8) : bufferAt (w &&& m) = bufferAt w :=
  List.map_congr_left fun k hk => by
    rw [fieldAt_and, h k (List.mem_range.mp hk), BitVec.and_allOnes]

/-- A mask of zeros over the ten bytes clears the buffer. -/
theorem bufferAt_and_of_zeros (w : RequestWord) {m : RequestWord} (h : ∀ k, fieldAt m (200 + 8 * k) 8 = 0) :
    bufferAt (w &&& m) = List.replicate Config.bufferBytes 0 := by
  simp only [bufferAt, fieldAt_and, h, BitVec.ofNat_eq_ofNat, BitVec.and_zero]
  rfl

/-- Masking a request clears exactly the fields an operation does not carry. -/
theorem unpack_and_operandMask (w : RequestWord) (i : Instr) :
    unpackRequest (w &&& operandMask i) = keepOperands i (unpackRequest w) := by
  have hop : (7 : BitVec 3) = BitVec.allOnes 3 := rfl
  have hilen : (15 : BitVec 4) = BitVec.allOnes 4 := rfl
  cases i with
  | varintEnc _ | varlongEnc _ | posEnc _ _ _ | posDec _ =>
    simp only [operandMask, unpackRequest, keepOperands, emptyRequest]
    rw [bufferAt_and_of_zeros w fun k => by simp (disch := omega) [fieldAt_or, fieldAt_placeAt_disjoint]]
    simp (disch := omega) only [hop, fieldAt_and, fieldAt_or, fieldAt_placeAt_allOnes, fieldAt_placeAt_disjoint]
    simp only [BitVec.ofNat_eq_ofNat, BitVec.or_zero, BitVec.zero_or, BitVec.and_zero, BitVec.and_allOnes]
  | varintDec _ _ | varlongDec _ _ =>
    simp only [operandMask, unpackRequest, keepOperands, emptyRequest]
    rw [bufferAt_and_of_ones w fun k hk => by
      rw [fieldAt_or, fieldAt_placeAt_allOnes _ _ _ _ (by omega) (by omega) (by omega)]
      simp (disch := omega) [fieldAt_or, fieldAt_placeAt_disjoint]]
    simp (disch := omega) only [hop, hilen, fieldAt_and, fieldAt_or, fieldAt_placeAt_allOnes, fieldAt_placeAt_disjoint]
    simp only [BitVec.ofNat_eq_ofNat, BitVec.or_zero, BitVec.zero_or, BitVec.and_zero, BitVec.and_allOnes]

/-- Settles O2: both sides are read back as the decoded record with the other fields omitted, and the fields leave no bit
out. -/
theorem encodeOfDecodeKeepsOperandBits : Obligations.EncodeOfDecodeKeepsOperandBits := by
  intro w i hdecode
  obtain ⟨hwf, hrequest⟩ := decodeRequest_cases (bufferAt_length w) hdecode
  refine ⟨hwf, eq_of_unpackRequest ?_⟩
  rw [encode, unpack_packRequest _ (requestOf_ibuf_length hwf), hrequest, unpack_and_operandMask]

/-! ### Operation select -/

/-- Decoding looks at bits 2:0 for the operation (R60). -/
theorem decode_of_op {w : RequestWord} {op : BitVec 3} (h : w.extractLsb' 0 3 = op) :
    decode w = decodeRequest { unpackRequest w with op := op } := by
  subst h; rfl

/-- Settles O3: with `op` known, the decoder's match reduces to the operation's row. -/
theorem opBitsAloneSelectTheOperation : Obligations.OpBitsAloneSelectTheOperation := fun w =>
  ⟨fun h => decode_of_op h,
    fun h => ⟨bufferAt w, bufferAt_length w, bufferAt_getElem? w, decode_of_op h⟩,
    fun h => decode_of_op h,
    fun h => ⟨bufferAt w, bufferAt_length w, bufferAt_getElem? w, decode_of_op h⟩,
    fun h => decode_of_op h, fun h => decode_of_op h, fun h => decode_of_op h, fun h => decode_of_op h⟩

/-- Settles O4, by running the decoder on each word. -/
theorem wordsOfTheSpecDecode : Obligations.WordsOfTheSpecDecode := by
  refine ⟨?_, ?_, ?_, ?_, ?_, ?_, ?_, ?_⟩ <;> decide

end Sys2Proof

namespace Sys2Proof.Machine

/-! ### The packed response -/

/-- The fields below the buffer, read back from a packed response (R59). -/
theorem packResponse_fields (r : Response) :
    fieldAt (packResponse r) 0 2 = statusCode r.status ∧ fieldAt (packResponse r) 2 2 = 0 ∧
      fieldAt (packResponse r) 4 4 = r.cnt ∧ fieldAt (packResponse r) 8 64 = r.r0 ∧
      fieldAt (packResponse r) 72 64 = r.r1 ∧ fieldAt (packResponse r) 136 64 = r.r2 := by
  simp [packResponse, fieldAt_or, fieldAt_placeAt, fieldAt_placeAt_disjoint, fieldAt_placeBytes_below]

/-- Byte k of the buffer, read back from a packed response (R59). -/
theorem packResponse_byte {r : Response} (hlen : r.obuf.length = 10) {k : Nat} (hk : k < r.obuf.length) :
    fieldAt (packResponse r) (200 + 8 * k) 8 = r.obuf[k] := by
  simp only [packResponse, fieldAt_or, fieldAt_placeBytes _ 200 _ hk (by omega)]
  simp (disch := omega) [fieldAt_placeAt_disjoint]

/-- Settles O5: each field is read back, and the status code is that of R62 in each case. -/
theorem packedResponseHasTheLayout : Obligations.PackedResponseHasTheLayout := by
  intro r hlen
  obtain ⟨hstatus, hreserved, hcnt, hr0, hr1, hr2⟩ := packResponse_fields r
  refine ⟨hstatus.trans ?_, hreserved, hcnt, hr0, hr1, hr2, fun k hk => ?_⟩
  · rcases r.status with _ | _ | _ | _ <;> rfl
  · have hk' : k < r.obuf.length := by omega
    rw [List.getElem?_eq_getElem hk', ← packResponse_byte hlen hk']
    rfl

/-! ### The written form -/

theorem writtenBuffer_length {bytes : List Byte} {ilen : Option Nat} (h : buffersOk bytes ilen = true) :
    (writtenBuffer bytes).length = 10 := by
  simp [buffersOk, writtenBuffer, Config.bufferBytes] at *; omega

theorem request_ibuf_length {t : Transaction} (h : t.wellFormed = true) : t.request.ibuf.length = 10 := by
  cases t with
  | varintDec bytes ilen => exact writtenBuffer_length h
  | varlongDec bytes ilen => exact writtenBuffer_length h
  | _ => rfl

/-- A written transaction is issued as the record it writes. -/
theorem decode_word {t : Transaction} (h : t.wellFormed = true) : decode t.word = decodeRequest t.request :=
  decode_packRequest (request_ibuf_length h)

/-- Settles O6: each form's record, read back whole, selects the instruction it writes or is reserved. -/
theorem writtenTransactionIsItsInstruction : Obligations.WrittenTransactionIsItsInstruction :=
  ⟨fun _ => decode_word rfl, fun _ _ h => decode_word h, fun _ => decode_word rfl, fun _ _ h => decode_word h,
    fun _ _ _ => decode_word rfl, fun _ => decode_word rfl, decode_word (t := .rsvd6) rfl, decode_word (t := .rsvd7) rfl⟩

/-! ### Reserved operations -/

/-- Op 6 and 7 are answered as an error, whatever the other fields hold (R61, R102). -/
theorem answerOf_reserved {w : RequestWord} (h : w.extractLsb' 0 3 = 6 ∨ w.extractLsb' 0 3 = 7) :
    answerOf (decode w) = errorAnswer .illegalOp := by
  rcases h with h | h <;> rw [decode_of_op h] <;> rfl

/-- Settles O8: the step gives the ILLEGAL_OP answer. -/
theorem reservedOpIsAnsweredIllegal : Obligations.ReservedOpIsAnsweredIllegal := by
  intro s w rest hreq hop
  refine ⟨_, _, step_respond hreq, answered_respond _ _, ?_, ?_⟩
  · rw [drive_status, answerOf_reserved hop]; rfl
  · rw [answerOf_reserved hop]; exact drive_cnt _ rfl

end Sys2Proof.Machine
end

section
/-! PROOFS. What the encoders emit (30_encoding.md R48 to R51): the number of bytes, each byte, and the last byte by the
range of the value. -/

namespace Sys2Proof.Machine

/-! ### The response of an encoder -/

/-- The defined bytes of a response are those of its answer (R36). -/
theorem drive_obuf_getElem? (n : Nat) {a : Answer} {k : Nat} (hk : k < a.bytes.length) :
    (driveResponse n a).obuf[k]? = a.bytes[k]? := List.getElem?_append_left hk

/-- An instruction that the encode loop answers, with a value that fits the room, responds OK with `n(u)` bytes, those
of R48. -/
theorem exec_encoder {w room : Nat} {i : Instr} {u : BitVec w}
    (hi : answerOf (.ok i) = encoderAnswer (encodeChunks (room + 1) u)) (hroom : room < 10)
    (hu : u.toNat < 128 ^ (room + 1)) (s : State) :
    ∃ t r, exec i s = .next t ∧ Answered s t r ∧ r.status = .ok ∧ r.cnt.toNat = encodedLength u.toNat ∧
      ∀ k < r.cnt.toNat, r.obuf[k]? = some (encodedByte u r.cnt.toNat k) := by
  obtain ⟨bytes, hanswer, hlen, -, hle, hbytes, -⟩ := encoderAnswer_ok room u hu
  rw [← hi] at hanswer
  have hcnt : (driveResponse s.draws (answerOf (.ok i))).cnt.toNat = bytes.length := by
    rw [hanswer, drive_cnt _ rfl, BitVec.toNat_ofNat, Nat.mod_eq_of_lt (show bytes.length < 16 by omega)]
  refine ⟨_, _, exec_respond i s, answered_respond _ s, ?_, hcnt.trans hlen, ?_⟩
  · rw [hanswer]; rfl
  · rw [hcnt, hanswer]
    intro k hk
    exact (drive_obuf_getElem? _ hk).trans (hbytes k hk)

/-- Settles O20: every 64-bit value fits ten bytes. -/
theorem varlongEncEmitsTheMinimalChunks : Obligations.VarlongEncEmitsTheMinimalChunks :=
  fun a s => exec_encoder (room := 9) rfl (by decide) (word_lt a) s

/-! ### Length and last byte by value -/

theorem encodedLength_pos (u : Nat) : 1 ≤ encodedLength u := by
  rcases Nat.lt_or_ge u 128 with h | h
  · rw [encodedLength_small h]
  · rw [encodedLength_step h]; omega

/-- `n(u)` counts base-128 digits: k + 1 of them from 128^k (from 0 for k = 0) up to 128^(k+1) - 1. -/
theorem encodedLength_eq {u k : Nat} (hlo : k ≠ 0 → 128 ^ k ≤ u) (hhi : u < 128 ^ (k + 1)) :
    encodedLength u = k + 1 := by
  induction k generalizing u with
  | zero => exact encodedLength_small (by simpa using hhi)
  | succ k ih =>
    have hlo := hlo k.succ_ne_zero
    rw [pow_succ] at hlo hhi
    have hpos : 0 < 128 ^ k := by positivity
    rw [encodedLength_step (by omega), ih (fun _ => by omega) (by omega)]

/-- The last of k + 1 bytes is chunk k, with its flag clear (R48). -/
theorem encodedByte_last_toNat {w : Nat} (u : BitVec w) (k : Nat) :
    (encodedByte u (k + 1) k).toNat = u.toNat / 128 ^ k % 128 := by
  simp [encodedByte, flaggedByte_false_toNat, Nat.shiftRight_eq_div_pow, pow_mul]

/-- Length and last byte of what such an instruction emits, for a value from 128^k (from 0 for k = 0) to 128^(k+1) - 1: the
last byte is the value's top chunk whole. -/
theorem exec_encoder_last {w room : Nat} {i : Instr} {u : BitVec w}
    (hi : answerOf (.ok i) = encoderAnswer (encodeChunks (room + 1) u)) (hroom : room < 10)
    (hu : u.toNat < 128 ^ (room + 1)) (s : State) :
    ∃ t r last, exec i s = .next t ∧ Answered s t r ∧ r.obuf[r.cnt.toNat - 1]? = some last ∧
      ∀ k, (k ≠ 0 → 128 ^ k ≤ u.toNat) → u.toNat < 128 ^ (k + 1) →
        r.cnt.toNat = k + 1 ∧ last.toNat = u.toNat / 128 ^ k := by
  obtain ⟨t, r, hexec, hanswered, -, hcnt, hbytes⟩ := exec_encoder hi hroom hu s
  have hpos := encodedLength_pos u.toNat
  refine ⟨t, r, _, hexec, hanswered, hbytes _ (by omega), fun k hlo hhi => ?_⟩
  have hk : r.cnt.toNat = k + 1 := hcnt.trans (encodedLength_eq hlo hhi)
  refine ⟨hk, ?_⟩
  rw [hk, Nat.add_sub_cancel, encodedByte_last_toNat, Nat.mod_eq_of_lt]
  rw [pow_succ] at hhi
  exact Nat.div_lt_of_lt_mul hhi

theorem answerOf_varintEnc (a : Word) :
    answerOf (.ok (.varintEnc a)) = encoderAnswer (encodeChunks 5 (a.setWidth 32)) := by
  rw [← intOperand_eq_setWidth]; rfl

/-- Settles O22: each row of R50 is a range of the unsigned value within one k, the last row the upper half of k = 4. -/
theorem varintLengthBySignedValue : Obligations.VarintLengthBySignedValue := by
  intro a s
  obtain ⟨t, r, last, hexec, hanswered, hlast, hrow⟩ :=
    exec_encoder_last (answerOf_varintEnc a) (by decide) (intOperand_eq_setWidth a ▸ intOperand_lt a) s
  have hsigned := BitVec.toInt_eq_toNat_cond (a.setWidth 32)
  refine ⟨t, r, last, hexec, hanswered, hlast, ?_, ?_, ?_, ?_, ?_, ?_⟩ <;> intro h
  · have := hrow 0; omega
  · have := hrow 1; omega
  · have := hrow 2; omega
  · have := hrow 3; omega
  · have := hrow 4; omega
  · have := hrow 4; omega

/-- A bound of R51 as a power of 128. -/
theorem two_pow_mul_eq_cast (n : Nat) : (2 : Int) ^ (7 * n) = ((128 ^ n : Nat) : Int) := by
  rw [pow_mul]; norm_num

/-- Settles O23: a negative value is 128^9 = 2^63 or more unsigned, so its top chunk is 1. -/
theorem varlongLengthBySignedValue : Obligations.VarlongLengthBySignedValue := by
  intro a s
  obtain ⟨t, r, last, hexec, hanswered, hlast, hrow⟩ :=
    exec_encoder_last (i := .varlongEnc a) (room := 9) rfl (by decide) (word_lt a) s
  have hsigned := BitVec.toInt_eq_toNat_cond a
  refine ⟨t, r, hexec, hanswered, fun k hk1 hk9 hlo hhi => ?_, fun hneg => ?_⟩
  · obtain ⟨j, rfl⟩ := Nat.exists_eq_add_of_le' hk1
    rw [Nat.add_sub_cancel, two_pow_mul_eq_cast] at hlo
    rw [two_pow_mul_eq_cast] at hhi
    have hnonneg : 0 ≤ a.toInt := by split at hlo <;> omega
    exact (hrow j (fun hj => by rw [if_neg (by omega)] at hlo; omega) (by omega)).1
  · obtain ⟨hcnt, hval⟩ := hrow 9 (by omega) (by omega)
    rw [hcnt] at hlast
    refine ⟨hcnt, hlast.trans (congrArg some (BitVec.eq_of_toNat_eq ?_))⟩
    show last.toNat = 1
    omega

end Sys2Proof.Machine
end

section
/-! PROOFS. VARINT_ENC and VARINT_DEC (40_varint.md) and the round trips. What the encode and the decode loop answer is said
once for both widths, with the instruction that a loop answers as a hypothesis. -/

namespace Sys2Proof.Machine

/-! ### How a decoder ends, by its input -/

/-- A byte with its flag clear bounds the flagged beginning of a buffer. -/
theorem le_of_flaggedBelow {ibuf : List Byte} {m n : Nat} (hm : flaggedBelow ibuf m)
    (hn : continues (memRead ibuf n) = false) : m ≤ n := by
  by_contra hlt
  exact Bool.false_ne_true (hn.symm.trans (hm n (by omega)))

/-- A decoder stops at the first byte with its flag clear, if that is available (R72, R84): of the three ends, the one at a
missing byte and the one with every byte flagged would need that byte flagged. -/
theorem decodeChunks_terminating {w room n : Nat} {ibuf : List Byte} {ilen : BitVec 4} (hroom : n < room)
    (hlen : n < ilen.toNat) (hflag : flaggedBelow ibuf n) (hclear : continues (memRead ibuf n) = false) :
    decodeChunks ibuf ilen room 0 (0 : BitVec w) = .ok (BitVec.ofNat w (wireValue (ibuf.take (n + 1))), n + 1) := by
  rcases decodeChunks_cases (w := w) ibuf ilen room 0 (flaggedBelow_zero ibuf) with
    ⟨m, -, -, -, hm, hmclear, hok⟩ | ⟨m, -, -, hge, hm, -⟩ | ⟨hall, -, -⟩
  · obtain rfl : m = n := le_antisymm (le_of_flaggedBelow hm hclear) (le_of_flaggedBelow hflag hmclear)
    exact hok
  · have := le_of_flaggedBelow hm hclear
    omega
  · have := le_of_flaggedBelow hall hclear
    omega

/-- A decoder with every allowed byte available and flagged answers the negation (R73, R85). -/
theorem decodeChunks_all_flagged {w room : Nat} {ibuf : List Byte} {ilen : BitVec 4} (hlen : room ≤ ilen.toNat)
    (hflag : flaggedBelow ibuf room) :
    decodeChunks ibuf ilen room 0 (0 : BitVec w) = .ok (BitVec.ofInt w (-(wireValue (ibuf.take room) : Int)), room) := by
  rcases decodeChunks_cases (w := w) ibuf ilen room 0 (flaggedBelow_zero ibuf) with
    ⟨m, -, hlt, -, -, hclear, -⟩ | ⟨m, -, hlt, hge, -⟩ | ⟨-, -, hok⟩
  · have := le_of_flaggedBelow hflag hclear
    omega
  · omega
  · rw [BitVec.ofInt_neg, BitVec.ofInt_natCast]
    rwa [Nat.zero_add] at hok

/-- A decoder fails exactly when it needs a byte that is missing (R74, R86). -/
theorem decodeChunks_truncated_iff {w room : Nat} {ibuf : List Byte} {ilen : BitVec 4} :
    decodeChunks ibuf ilen room 0 (0 : BitVec w) = .error .truncated ↔
      ∃ i < room, flaggedBelow ibuf i ∧ ilen.toNat ≤ i := by
  constructor
  · intro herr
    rcases decodeChunks_cases (w := w) ibuf ilen room 0 (flaggedBelow_zero ibuf) with
      ⟨_, -, -, -, -, -, hok⟩ | ⟨m, -, hlt, hge, hm, -⟩ | ⟨-, -, hok⟩
    · cases herr.symm.trans hok
    · exact ⟨m, by omega, hm, hge⟩
    · cases herr.symm.trans hok
  · rintro ⟨i, hi, hflag, hmissing⟩
    rcases decodeChunks_cases (w := w) ibuf ilen room 0 (flaggedBelow_zero ibuf) with
      ⟨m, -, -, hlt, -, hclear, -⟩ | ⟨_, -, -, -, -, herr⟩ | ⟨-, havail, -⟩
    · have := le_of_flaggedBelow hflag hclear
      omega
    · exact herr
    · have := havail i (Nat.zero_le i) (by omega)
      omega

/-! ### The response of a decoder -/

/-- An instruction that the decode loop answers with a result responds OK with it, sign-extended, and with the bytes read
(R75, R76, R87). -/
theorem exec_decoder_ok {w room n : Nat} {j : Instr} {ibuf : List Byte} {ilen : BitVec 4} {v : BitVec w}
    (hj : answerOf (.ok j) = decoderAnswer (decodeChunks ibuf ilen room 0 (0 : BitVec w)))
    (hok : decodeChunks ibuf ilen room 0 (0 : BitVec w) = .ok (v, n)) (hn : n < 16) (s : State) :
    ∃ t r, exec j s = .next t ∧ Answered s t r ∧ r.status = .ok ∧ r.r0 = v.signExtend 64 ∧ r.cnt.toNat = n := by
  rw [hok] at hj
  refine ⟨_, _, exec_respond j s, answered_respond _ s, ?_, ?_, ?_⟩
  · rw [hj]; rfl
  · rw [hj]; exact drive_r0 _ rfl
  · rw [hj, drive_cnt _ rfl, BitVec.toNat_ofNat, Nat.mod_eq_of_lt hn]

/-- A decoder's answer is TRUNCATED if its loop fails, and OK otherwise. -/
theorem decoderAnswer_status {w : Nat} (ibuf : List Byte) (ilen : BitVec 4) (room i : Nat) (acc : BitVec w) :
    (decoderAnswer (decodeChunks ibuf ilen room i acc)).status =
      if decodeChunks ibuf ilen room i acc = .error .truncated then .error .truncated else .ok := by
  cases h : decodeChunks ibuf ilen room i acc with
  | ok result => rfl
  | error e => rw [decodeChunks_error h]; rfl

/-- Such an instruction responds TRUNCATED exactly when a needed byte is missing, then with `cnt = 0` (R103), and OK
otherwise. -/
theorem exec_decoder_truncated_iff {w room : Nat} {j : Instr} {ibuf : List Byte} {ilen : BitVec 4}
    (hj : answerOf (.ok j) = decoderAnswer (decodeChunks ibuf ilen room 0 (0 : BitVec w))) (s : State) :
    ∃ t r, exec j s = .next t ∧ Answered s t r ∧
      (r.status = .error .truncated ↔ ∃ i < room, flaggedBelow ibuf i ∧ ilen.toNat ≤ i) ∧
      (r.status = .error .truncated → r.cnt = 0) ∧ (r.status ≠ .error .truncated → r.status = .ok) := by
  obtain ⟨-, hcnt, -⟩ := legal_answerOf (.ok j)
  refine ⟨_, _, exec_respond j s, answered_respond _ s, ?_, fun h => drive_cnt _ (hcnt ?_), ?_⟩
  · rw [drive_status, hj, decoderAnswer_status, ← decodeChunks_truncated_iff (w := w)]
    split
    · exact iff_of_true rfl ‹_›
    · exact iff_of_false (by decide) ‹_›
  · rw [← drive_status s.draws, h]; decide
  · rw [drive_status, hj, decoderAnswer_status]
    split <;> simp

/-- Settles O25: the loop stops at byte n. -/
theorem varintDecStopsAtTheTerminatingByte : Obligations.VarintDecStopsAtTheTerminatingByte :=
  fun _ _ s _ hn hlen hflag hclear =>
    exec_decoder_ok (w := 32) rfl (decodeChunks_terminating hn hlen hflag hclear) (by omega) s

/-- Settles O26: the loop reads its five bytes and negates. -/
theorem varintDecNegatesWhenTheFifthByteIsFlagged : Obligations.VarintDecNegatesWhenTheFifthByteIsFlagged :=
  fun _ _ s hlen hflag => exec_decoder_ok (w := 32) rfl (decodeChunks_all_flagged hlen hflag) (by decide) s

/-- Settles O27: the loop fails exactly at a missing byte it needs. -/
theorem varintDecTruncatesExactlyWhenAByteIsMissing : Obligations.VarintDecTruncatesExactlyWhenAByteIsMissing :=
  fun _ _ s => exec_decoder_truncated_iff (w := 32) rfl s

/-! ### VARINT_ENC -/

/-- VARINT_ENC's operand fits five bytes. -/
theorem setWidth_lt (a : Word) : (a.setWidth 32).toNat < 128 ^ 5 :=
  intOperand_eq_setWidth a ▸ intOperand_lt a

/-- Settles O19: every 32-bit value fits five bytes. -/
theorem varintEncEmitsTheMinimalChunks : Obligations.VarintEncEmitsTheMinimalChunks :=
  fun a s => exec_encoder (answerOf_varintEnc a) (by decide) (setWidth_lt a) s

/-! ### Statuses -/

theorem encoderAnswer_status {w room : Nat} {u : BitVec w} (hu : u.toNat < 128 ^ (room + 1)) :
    (encoderAnswer (encodeChunks (room + 1) u)).status = .ok := by
  obtain ⟨bytes, hanswer, -⟩ := encoderAnswer_ok room u hu
  rw [hanswer]; rfl

theorem decoderAnswer_status_cases {w : Nat} (ibuf : List Byte) (ilen : BitVec 4) (room i : Nat) (acc : BitVec w) :
    (decoderAnswer (decodeChunks ibuf ilen room i acc)).status = .ok ∨
      (decoderAnswer (decodeChunks ibuf ilen room i acc)).status = .error .truncated := by
  rw [decoderAnswer_status]
  split <;> simp

/-- Settles O11: an error has `cnt = 0` because every answer is legal, and the status is that of the operation's loop. -/
theorem statusesEachOperationCanGive : Obligations.StatusesEachOperationCanGive := by
  intro i s
  obtain ⟨-, hcnt, -⟩ := legal_answerOf (.ok i)
  refine ⟨_, _, exec_respond i s, answered_respond _ s, fun hne => drive_cnt _ (hcnt hne), ?_⟩
  cases i with
  | varintEnc a => exact encoderAnswer_status (intOperand_lt a)
  | varintDec ibuf ilen => exact decoderAnswer_status_cases ..
  | varlongEnc a => exact encoderAnswer_status (room := 9) (word_lt a)
  | varlongDec ibuf ilen => exact decoderAnswer_status_cases ..
  | posEnc a b c => rfl
  | posDec a => rfl

/-! ### What an encoder emits, as a sequence -/

/-- A whole sequence (R47): at least one byte, and "more bytes follow" on each but the last. -/
def WholeSequence (bytes : List Byte) : Prop :=
  ∃ n, bytes.length = n + 1 ∧ flaggedBelow bytes n ∧ continues (memRead bytes n) = false

theorem memRead_eq {bytes : List Byte} {k : Nat} {b : Byte} (h : bytes[k]? = some b) : memRead bytes k = b := by
  simp [memRead, h]

theorem memRead_of_prefix {bytes ibuf : List Byte} (h : bytes <+: ibuf) {k : Nat} (hk : k < bytes.length) :
    memRead ibuf k = memRead bytes k := by
  obtain ⟨tail, rfl⟩ := h
  simp [memRead, List.getElem?_append_left hk]

theorem continues_encodedByte {w : Nat} (u : BitVec w) (n k : Nat) :
    continues (encodedByte u n k) = decide (k + 1 < n) := continues_flaggedByte ..

/-- The bytes of R48 are a whole sequence. -/
theorem wholeSequence_of_encodedBytes {w : Nat} {u : BitVec w} {bytes : List Byte} (hpos : 1 ≤ bytes.length)
    (hbytes : ∀ k < bytes.length, bytes[k]? = some (encodedByte u bytes.length k)) : WholeSequence bytes := by
  have hflag (k : Nat) (hk : k < bytes.length) : continues (memRead bytes k) = decide (k + 1 < bytes.length) := by
    rw [memRead_eq (hbytes k hk), continues_encodedByte]
  refine ⟨bytes.length - 1, by omega, fun k hk => ?_, ?_⟩
  · exact (hflag k (by omega)).trans (decide_eq_true (by omega))
  · exact (hflag _ (by omega)).trans (decide_eq_false (by omega))

/-- What a host takes of a driven OK answer with bytes: those bytes, `cnt` of them (R119). -/
theorem takenBytes_drive (n : Nat) {a : Answer} (hok : a.status = .ok) (hcnt : a.cnt = some (BitVec.ofNat 4 a.bytes.length))
    (hlen : a.bytes.length < 16) :
    (driveResponse n a).cnt.toNat = a.bytes.length ∧ takenBytes (driveResponse n a) = a.bytes := by
  have hdriven : (driveResponse n a).cnt.toNat = a.bytes.length := by
    rw [drive_cnt n hcnt, BitVec.toNat_ofNat, Nat.mod_eq_of_lt hlen]
  exact ⟨hdriven, by simp only [takenBytes, drive_status, hok, hdriven, drive_obuf_take]⟩

/-- What a host takes from an encoder (R119): a whole sequence of `cnt` bytes, within the room, that builds the value. -/
theorem exec_encoder_taken {w room : Nat} {i : Instr} {u : BitVec w}
    (hi : answerOf (.ok i) = encoderAnswer (encodeChunks (room + 1) u)) (hroom : room < 10)
    (hu : u.toNat < 128 ^ (room + 1)) (s : State) :
    ∃ t r, exec i s = .next t ∧ Answered s t r ∧ r.status = .ok ∧ r.cnt.toNat = (takenBytes r).length ∧
      (takenBytes r).length ≤ room + 1 ∧ WholeSequence (takenBytes r) ∧ wireValue (takenBytes r) = u.toNat := by
  obtain ⟨bytes, hanswer, -, hpos, hle, hbytes, hval⟩ := encoderAnswer_ok room u hu
  rw [← hi] at hanswer
  obtain ⟨hcnt, htaken⟩ := takenBytes_drive s.draws (a := answerOf (.ok i)) (by rw [hanswer]; rfl) (by rw [hanswer])
    (by rw [hanswer]; show bytes.length < 16; omega)
  rw [hanswer] at hcnt htaken
  refine ⟨_, _, exec_respond i s, answered_respond _ s, by rw [hanswer]; rfl, ?_⟩
  rw [hanswer, htaken]
  exact ⟨hcnt, hle, wholeSequence_of_encodedBytes hpos hbytes, hval⟩

/-- An encoder whose value fits its room responds OK with at least one byte and no more than the room. -/
theorem exec_encoder_cnt {w room : Nat} {i : Instr} {u : BitVec w}
    (hi : answerOf (.ok i) = encoderAnswer (encodeChunks (room + 1) u)) (hroom : room < 10)
    (hu : u.toNat < 128 ^ (room + 1)) (s : State) :
    ∃ t r, exec i s = .next t ∧ Answered s t r ∧ r.status = .ok ∧ 1 ≤ r.cnt.toNat ∧ r.cnt.toNat ≤ room + 1 := by
  obtain ⟨t, r, hexec, hanswered, hok, hcnt, hle, ⟨n, hn, -⟩, -⟩ := exec_encoder_taken hi hroom hu s
  exact ⟨t, r, hexec, hanswered, hok, by omega, by omega⟩

/-- Settles O21: a 32-bit value fits five bytes and a 64-bit value ten. -/
theorem encodersNeverOverflow : Obligations.EncodersNeverOverflow :=
  fun a s => ⟨exec_encoder_cnt (answerOf_varintEnc a) (by decide) (setWidth_lt a) s,
    exec_encoder_cnt (room := 9) rfl (by decide) (word_lt a) s⟩

/-! ### Decode after encode -/

/-- A decoder that has a whole sequence at the start of its buffer, available and within its room, reads exactly that
sequence and answers its value, whatever follows. -/
theorem decodeChunks_wholeSequence {w room : Nat} {bytes ibuf : List Byte} {ilen : BitVec 4} (hseq : WholeSequence bytes)
    (hprefix : bytes <+: ibuf) (hroom : bytes.length ≤ room) (hlen : bytes.length ≤ ilen.toNat) :
    decodeChunks ibuf ilen room 0 (0 : BitVec w) = .ok (BitVec.ofNat w (wireValue bytes), bytes.length) := by
  obtain ⟨n, hn, hflag, hclear⟩ := hseq
  have hread (k : Nat) (hk : k < n + 1) : memRead ibuf k = memRead bytes k := memRead_of_prefix hprefix (by omega)
  have htake : ibuf.take (n + 1) = bytes := by rw [← hn, ← List.prefix_iff_eq_take.mp hprefix]
  have hflag' : flaggedBelow ibuf n := fun k hk => by rw [hread k (by omega)]; exact hflag k hk
  rw [decodeChunks_terminating (by omega) (by omega) hflag' (by rwa [hread n (by omega)]), htake, hn]

/-- An encoder and the decoder of its width: wherever the encoder's bytes stand at the start of a buffer and are available,
the decoder gives the value back, sign-extended, and the same `cnt`. -/
theorem exec_decoder_encoder {w room : Nat} {i : Instr} {u : BitVec w} {dec : List Byte → BitVec 4 → Instr}
    (hi : answerOf (.ok i) = encoderAnswer (encodeChunks (room + 1) u))
    (hdec : ∀ ibuf ilen, answerOf (.ok (dec ibuf ilen)) =
      decoderAnswer (decodeChunks ibuf ilen (room + 1) 0 (0 : BitVec w)))
    (hroom : room < 10) (hu : u.toNat < 128 ^ (room + 1)) (s s' : State) :
    ∃ t r, exec i s = .next t ∧ Answered s t r ∧ r.status = .ok ∧ r.cnt.toNat = (takenBytes r).length ∧
      (takenBytes r).length ≤ Config.bufferBytes ∧
      ∀ ibuf ilen, takenBytes r <+: ibuf → (takenBytes r).length ≤ ilen.toNat →
        ∃ t' r', exec (dec ibuf ilen) s' = .next t' ∧ Answered s' t' r' ∧ r'.status = .ok ∧
          r'.r0 = u.signExtend 64 ∧ r'.cnt = r.cnt := by
  obtain ⟨t, r, hexec, hanswered, hok, hcnt, hle, hseq, hval⟩ := exec_encoder_taken hi hroom hu s
  refine ⟨t, r, hexec, hanswered, hok, hcnt, le_trans hle hroom, fun ibuf ilen hprefix hlen => ?_⟩
  have hloop := decodeChunks_wholeSequence (w := w) hseq hprefix hle hlen
  rw [hval, BitVec.ofNat_toNat, BitVec.setWidth_eq] at hloop
  obtain ⟨t', r', hexec', hanswered', hok', hr0, hcnt'⟩ := exec_decoder_ok (hdec ibuf ilen) hloop (by omega) s'
  exact ⟨t', r', hexec', hanswered', hok', hr0, BitVec.eq_of_toNat_eq (hcnt'.trans hcnt.symm)⟩

/-- Settles O33: the bytes stand first in the buffer, and `ilen = cnt` makes exactly them available. -/
theorem varintRoundTrip : Obligations.VarintRoundTrip := by
  intro a s s'
  obtain ⟨t, r, hexec, hanswered, hok, hcnt, -, hdecode⟩ :=
    exec_decoder_encoder (answerOf_varintEnc a) (dec := .varintDec) (fun _ _ => rfl) (by decide) (setWidth_lt a) s s'
  exact ⟨t, r, hexec, hanswered, hok, fun tail => hdecode _ _ (List.prefix_append _ tail) hcnt.ge⟩

/-! ### A host walking a stream -/

/-- The buffer a host places starts with the bytes at its position (R118). -/
theorem prefix_streamBuffer {bytes : List Byte} (h : bytes.length ≤ Config.bufferBytes) (before after : List Byte) :
    bytes <+: streamBuffer (before ++ bytes ++ after) before.length := by
  have hvalid : bytes <+: ((before ++ bytes ++ after).drop before.length).take Config.bufferBytes := by
    rw [List.append_assoc, List.drop_left]
    exact List.prefix_take_iff.mpr ⟨List.prefix_append _ _, h⟩
  exact hvalid.trans (List.prefix_append _ _)

/-- The `ilen` a host gives covers the bytes at its position, when they fit the buffer (R118). -/
theorem length_le_streamLength {bytes : List Byte} (h : bytes.length ≤ Config.bufferBytes) (before after : List Byte) :
    bytes.length ≤ (streamLength (before ++ bytes ++ after) before.length).toNat := by
  simp only [streamLength, List.length_append, Config.bufferBytes, BitVec.toNat_ofNat] at *
  omega

theorem streamAdvance_ok (p : Nat) {r : Response} (h : r.status = .ok) : streamAdvance p r = p + r.cnt.toNat := by
  simp only [streamAdvance, h]

/-- A host that decodes, at its position in a stream, what an encoder of that width emitted there recovers the value and
moves past exactly those bytes. -/
theorem exec_streamWalk {w room : Nat} {i : Instr} {u : BitVec w} {dec : List Byte → BitVec 4 → Instr}
    (hi : answerOf (.ok i) = encoderAnswer (encodeChunks (room + 1) u))
    (hdec : ∀ ibuf ilen, answerOf (.ok (dec ibuf ilen)) =
      decoderAnswer (decodeChunks ibuf ilen (room + 1) 0 (0 : BitVec w)))
    (hroom : room < 10) (hu : u.toNat < 128 ^ (room + 1)) (s s' : State) (before after : List Byte) :
    ∃ t r t' r', exec i s = .next t ∧ Answered s t r ∧
      exec (dec (streamBuffer (before ++ takenBytes r ++ after) before.length)
        (streamLength (before ++ takenBytes r ++ after) before.length)) s' = .next t' ∧ Answered s' t' r' ∧
      r'.status = .ok ∧ r'.r0 = u.signExtend 64 ∧ streamAdvance before.length r' = (before ++ takenBytes r).length := by
  obtain ⟨t, r, hexec, hanswered, -, hcnt, hfits, hdecode⟩ := exec_decoder_encoder hi hdec hroom hu s s'
  obtain ⟨t', r', hexec', hanswered', hok', hr0, hcnt'⟩ :=
    hdecode _ _ (prefix_streamBuffer hfits before after) (length_le_streamLength hfits before after)
  refine ⟨t, r, t', r', hexec, hanswered, hexec', hanswered', hok', hr0, ?_⟩
  rw [streamAdvance_ok _ hok', hcnt', hcnt, List.length_append]

/-- Settles O36: the walk at either width; sign-extending 64 bits to 64 changes nothing. -/
theorem streamWalkRecoversAnEncodedValue : Obligations.StreamWalkRecoversAnEncodedValue := by
  intro a s s' before after
  refine ⟨exec_streamWalk (answerOf_varintEnc a) (dec := .varintDec) (fun _ _ => rfl) (by decide) (setWidth_lt a)
    s s' before after, ?_⟩
  have hlong := exec_streamWalk (i := .varlongEnc a) (room := 9) (dec := .varlongDec) rfl (fun _ _ => rfl) (by decide)
    (word_lt a) s s' before after
  rwa [BitVec.signExtend_eq] at hlong

end Sys2Proof.Machine
end

section
/-! PROOFS. VARLONG_ENC and VARLONG_DEC (41_varlong.md), and how the two formats differ (R89). The loops are those of
VARINT_ENC and VARINT_DEC at 64 bits, where the sign extension onto `r0` changes nothing (R87). -/

namespace Sys2Proof.Machine

/-! ### VARLONG_DEC -/

/-- VARLONG_DEC answers its loop's 64-bit result as it is (R87). -/
theorem exec_varlongDec_ok {n : Nat} {ibuf : List Byte} {ilen : BitVec 4} {v : Word}
    (hok : decodeChunks ibuf ilen 10 0 (0 : Word) = .ok (v, n)) (hn : n < 16) (s : State) :
    ∃ t r, exec (.varlongDec ibuf ilen) s = .next t ∧ Answered s t r ∧ r.status = .ok ∧ r.r0 = v ∧ r.cnt.toNat = n := by
  have hexec := exec_decoder_ok (j := .varlongDec ibuf ilen) rfl hok hn s
  rwa [BitVec.signExtend_eq] at hexec

/-- Settles O34: the bytes stand first in the buffer, and `ilen = cnt` makes exactly them available. -/
theorem varlongRoundTrip : Obligations.VarlongRoundTrip := by
  intro a s s'
  obtain ⟨t, r, hexec, hanswered, hok, hcnt, -, hdecode⟩ :=
    exec_decoder_encoder (i := .varlongEnc a) (room := 9) (dec := .varlongDec) rfl (fun _ _ => rfl) (by decide)
      (word_lt a) s s'
  rw [BitVec.signExtend_eq] at hdecode
  exact ⟨t, r, hexec, hanswered, hok, fun tail => hdecode _ _ (List.prefix_append _ tail) hcnt.ge⟩

/-- Settles O28: the loop stops at byte n. -/
theorem varlongDecStopsAtTheTerminatingByte : Obligations.VarlongDecStopsAtTheTerminatingByte :=
  fun _ _ s _ hn hlen hflag hclear => exec_varlongDec_ok (decodeChunks_terminating hn hlen hflag hclear) (by omega) s

/-- Settles O29: the loop reads its ten bytes and negates. -/
theorem varlongDecNegatesWhenTheTenthByteIsFlagged : Obligations.VarlongDecNegatesWhenTheTenthByteIsFlagged :=
  fun _ _ s hlen hflag => exec_varlongDec_ok (decodeChunks_all_flagged hlen hflag) (by decide) s

/-- Settles O30: the loop fails exactly at a missing byte it needs. -/
theorem varlongDecTruncatesExactlyWhenAByteIsMissing : Obligations.VarlongDecTruncatesExactlyWhenAByteIsMissing :=
  fun _ _ s => exec_decoder_truncated_iff (w := 64) rfl s

/-! ### A 32-bit value in both formats -/

theorem setWidth_signExtend (v : BitVec 32) : (v.signExtend 64).setWidth 32 = v := by
  ext j hj
  rw [BitVec.getElem_setWidth, BitVec.getLsbD_signExtend]
  simp [hj, show j < 64 by omega]

theorem answerOf_varintEnc_signExtend (v : BitVec 32) :
    answerOf (.ok (.varintEnc (v.signExtend 64))) = encoderAnswer (encodeChunks 5 v) := by
  rw [answerOf_varintEnc, setWidth_signExtend]

theorem toNat_lt_128_pow_5 (v : BitVec 32) : v.toNat < 128 ^ 5 := lt_trans v.isLt (by norm_num)

/-- A non-negative value is one number in both formats. -/
theorem toNat_signExtend_of_nonneg {v : BitVec 32} (hv : 0 ≤ v.toInt) : (v.signExtend 64).toNat = v.toNat := by
  have hsigned := BitVec.toInt_signExtend_of_le (x := v) (show 32 ≤ 64 by decide)
  rw [BitVec.toInt_eq_toNat_cond, BitVec.toInt_eq_toNat_cond] at hsigned
  rw [BitVec.toInt_eq_toNat_cond] at hv
  omega

/-- In 32 bits a negative value has its top bit set: as a VarInt it takes five bytes (R50). -/
theorem encodedLength_of_neg {v : BitVec 32} (hv : v.toInt < 0) : encodedLength v.toNat = 5 := by
  rw [BitVec.toInt_eq_toNat_cond] at hv
  exact encodedLength_eq (k := 4) (fun _ => by omega) (toNat_lt_128_pow_5 v)

/-- In 64 bits too: as a VarLong it takes ten (R51). -/
theorem encodedLength_signExtend_of_neg {v : BitVec 32} (hv : v.toInt < 0) :
    encodedLength (v.signExtend 64).toNat = 10 := by
  rw [← BitVec.toInt_signExtend_of_le (show 32 ≤ 64 by decide), BitVec.toInt_eq_toNat_cond] at hv
  exact encodedLength_eq (k := 9) (fun _ => by omega) (word_lt _)

/-- The 32-bit pattern of a negative value is positive in 64 bits. -/
theorem toInt_setWidth_pos_of_neg {v : BitVec 32} (hv : v.toInt < 0) : 0 < (v.setWidth 64).toInt := by
  rw [BitVec.toInt_eq_toNat_cond] at hv
  rw [BitVec.toInt_eq_toNat_cond, BitVec.toNat_setWidth]
  omega

/-- Byte k depends on the number alone, not on the width it is held in: R48 reads the bits above it as 0. -/
theorem encodedByte_congr {w w' : Nat} {u : BitVec w} {u' : BitVec w'} (h : u.toNat = u'.toNat) (n k : Nat) :
    encodedByte u n k = encodedByte u' n k := by
  have hchunk : u.extractLsb' (7 * k) 7 = u'.extractLsb' (7 * k) 7 :=
    BitVec.eq_of_toNat_eq (by simp only [BitVec.extractLsb'_toNat, h])
  rw [encodedByte, encodedByte, hchunk]

/-- A response that carries the sequence of `u`: OK, `n(u)` bytes, those of R48. `exec_encoder` gives one. -/
def Emits {w : Nat} (r : Response) (u : BitVec w) : Prop :=
  r.status = .ok ∧ r.cnt.toNat = encodedLength u.toNat ∧
    ∀ k < r.cnt.toNat, r.obuf[k]? = some (encodedByte u r.cnt.toNat k)

/-- What a host takes of such a response: exactly those bytes (R119). -/
theorem takenBytes_of_emits {w : Nat} {u : BitVec w} {r : Response} (h : Emits r u) :
    takenBytes r = (List.range r.cnt.toNat).map (encodedByte u r.cnt.toNat) := by
  obtain ⟨hok, -, hbytes⟩ := h
  refine List.ext_getElem? fun k => ?_
  rcases Nat.lt_or_ge k r.cnt.toNat with hk | hk
  · simp [takenBytes, hok, hk, hbytes k hk]
  · simp [takenBytes, hok, hk]

/-- One number has one sequence, at whatever widths two encoders are given it. -/
theorem taken_eq_of_toNat_eq {w w' : Nat} {u : BitVec w} {u' : BitVec w'} {r r' : Response} (h : u.toNat = u'.toNat)
    (hr : Emits r u) (hr' : Emits r' u') : takenBytes r = takenBytes r' ∧ r.cnt = r'.cnt := by
  have hcnt : r.cnt = r'.cnt := by
    obtain ⟨-, hlen, -⟩ := hr
    obtain ⟨-, hlen', -⟩ := hr'
    exact BitVec.eq_of_toNat_eq (by rw [hlen, hlen', h])
  refine ⟨?_, hcnt⟩
  rw [takenBytes_of_emits hr, takenBytes_of_emits hr', hcnt]
  exact List.map_congr_left fun k _ => encodedByte_congr h _ k

/-- An instruction's response is determined by it and the state. -/
theorem response_unique {i : Instr} {s t t' : State} {r r' : Response} (hexec : exec i s = .next t)
    (hanswered : Answered s t r) (hexec' : exec i s = .next t') (hanswered' : Answered s t' r') : r = r' := by
  obtain rfl : t = t' := Host.Outcome.next.inj (hexec.symm.trans hexec')
  obtain ⟨-, hresponses, -⟩ := hanswered
  obtain ⟨-, hresponses', -⟩ := hanswered'
  simpa using hresponses.symm.trans hresponses'

/-- Settles O35: a non-negative value is one number in both formats. A negative one has its top bit set in either, and its
VarInt sequence is a whole one, so VARLONG_DEC answers the number it builds. -/
theorem varintAndVarlongDifferOnNegatives : Obligations.VarintAndVarlongDifferOnNegatives := by
  intro v s s'
  obtain ⟨t, r, hexec, hanswered, hemits⟩ :=
    exec_encoder (answerOf_varintEnc_signExtend v) (by decide) (toNat_lt_128_pow_5 v) s
  obtain ⟨t', r', hexec', hanswered', hemits'⟩ :=
    exec_encoder (i := .varlongEnc (v.signExtend 64)) (room := 9) rfl (by decide) (word_lt _) s'
  refine ⟨t, r, t', r', hexec, hanswered, hexec', hanswered', fun hv => ?_, fun hv => ?_⟩
  · exact taken_eq_of_toNat_eq (toNat_signExtend_of_nonneg hv).symm hemits hemits'
  · obtain ⟨-, hcnt, -⟩ := hemits
    obtain ⟨-, hcnt', -⟩ := hemits'
    refine ⟨hcnt.trans (encodedLength_of_neg hv), hcnt'.trans (encodedLength_signExtend_of_neg hv), fun tail s'' => ?_⟩
    obtain ⟨_, q, hexecq, hansweredq, -, hlen, hle, hseq, hval⟩ :=
      exec_encoder_taken (answerOf_varintEnc_signExtend v) (by decide) (toNat_lt_128_pow_5 v) s
    obtain rfl := response_unique hexec hanswered hexecq hansweredq
    have hloop := decodeChunks_wholeSequence (w := 64) (room := 10) hseq (List.prefix_append _ tail) (by omega) hlen.ge
    rw [hval, BitVec.ofNat_toNat] at hloop
    obtain ⟨u, q, hdec, hansweredu, hok, hr0, -⟩ := exec_varlongDec_ok hloop (by omega) s''
    exact ⟨u, q, hdec, hansweredu, hok, hr0, hr0 ▸ toInt_setWidth_pos_of_neg hv⟩

end Sys2Proof.Machine
end

section
/-! PROOFS. POS_ENC and POS_DEC (42_position.md): the masks and shifts of R90 and R92 as slices of a word, the slices as
signed numbers (R97), and the statements about packing, unpacking and the round trips. -/

namespace Sys2Proof.Machine

/-! ### Slices of a word -/

/-- A mask of `n` ones keeps the low slice. -/
theorem and_lowMask (x : Word) {n : Nat} (hn : n ≤ 64) :
    x &&& BitVec.ofNat 64 (2 ^ n - 1) = (x.extractLsb' 0 n).setWidth 64 := by
  have hpow : 2 ^ n ≤ 2 ^ 64 := Nat.pow_le_pow_right (by decide) hn
  have hmask : (2 ^ n - 1) % 2 ^ 64 = 2 ^ n - 1 := Nat.mod_eq_of_lt (by omega)
  apply BitVec.eq_of_toNat_eq
  rw [BitVec.toNat_and, BitVec.toNat_ofNat, hmask, Nat.and_two_pow_sub_one_eq_mod, ← BitVec.setWidth_eq_extractLsb' hn,
    BitVec.toNat_setWidth_of_le hn, BitVec.toNat_setWidth]

/-- An arithmetic shift brings a slice of the word to the bottom. -/
theorem extractLsb'_sshiftRight (x : Word) {lo n : Nat} (h : lo + n ≤ 64) :
    (x.sshiftRight lo).extractLsb' 0 n = x.extractLsb' lo n := by
  ext j hj
  simp [BitVec.getElem_sshiftRight, show j < 64 by omega, show lo + j < 64 by omega]

/-- Shifting down to the topmost slice sign-extends it (R93). -/
theorem sshiftRight_eq_signExtend (x : Word) : x.sshiftRight 38 = (x.extractLsb' 38 26).signExtend 64 := by
  ext j hj
  rw [BitVec.getElem_sshiftRight, BitVec.getElem_signExtend]
  by_cases hlow : j < 26
  · simp [hlow, show 38 + j < 64 by omega]
  · simp [hlow, show ¬ 38 + j < 64 by omega, BitVec.msb_eq_getLsbD_last]

theorem extractLsb'_signExtend {n : Nat} (v : BitVec n) (hn : n ≤ 64) : (v.signExtend 64).extractLsb' 0 n = v := by
  ext j hj
  simp [BitVec.getElem_signExtend, hj, show j < 64 by omega]

theorem extractLsb'_setWidth {n : Nat} (v : BitVec n) (hn : n ≤ 64) : (v.setWidth 64).extractLsb' 0 n = v := by
  rw [BitVec.extractLsb'_setWidth_of_le (by omega), BitVec.extractLsb'_eq_self]

/-! ### The word of R90 and the fields of R92 -/

theorem positionWord_eq_append (x y z : Word) :
    positionWord x y z = x.extractLsb' 0 26 ++ z.extractLsb' 0 26 ++ y.extractLsb' 0 12 := by
  have hwidth := BitVec.setWidth_append_append_eq_shiftLeft_setWidth_or (w''' := 64) (b := x.extractLsb' 0 26)
    (b' := z.extractLsb' 0 26) (b'' := y.extractLsb' 0 12)
  rw [BitVec.setWidth_eq] at hwidth
  rw [hwidth, ← and_lowMask x (by decide), ← and_lowMask z (by decide), ← and_lowMask y (by decide)]
  rfl

theorem positionX_eq_signExtend (w : Word) : positionX w = (w.extractLsb' 38 26).signExtend 64 :=
  sshiftRight_eq_signExtend w

theorem positionY_eq_setWidth (w : Word) : positionY w = (w.extractLsb' 0 12).setWidth 64 :=
  and_lowMask w (n := 12) (by decide)

theorem positionZ_eq_setWidth (w : Word) : positionZ w = (w.extractLsb' 12 26).setWidth 64 := by
  rw [← extractLsb'_sshiftRight w (by decide), ← and_lowMask _ (by decide)]
  rfl

/-- The three fields leave no bit of a word out, and packing drops what unpacking added (R97). -/
theorem positionWord_of_fields (w : Word) : positionWord (positionX w) (positionY w) (positionZ w) = w := by
  rw [positionWord_eq_append, positionX_eq_signExtend, positionY_eq_setWidth, positionZ_eq_setWidth,
    extractLsb'_signExtend _ (by decide), extractLsb'_setWidth _ (by decide), extractLsb'_setWidth _ (by decide),
    BitVec.extractLsb'_append_extractLsb'_eq_extractLsb' (by rfl),
    BitVec.extractLsb'_append_extractLsb'_eq_extractLsb' (by rfl)]
  exact BitVec.extractLsb'_eq_self

theorem positionX_positionWord (x y z : Word) :
    positionX (positionWord x y z) = (x.extractLsb' 0 26).signExtend 64 := by
  rw [positionX_eq_signExtend, positionWord_eq_append, BitVec.append_assoc, BitVec.extractLsb'_cast,
    BitVec.extractLsb'_append_eq_left]

theorem positionY_positionWord (x y z : Word) :
    positionY (positionWord x y z) = (y.extractLsb' 0 12).setWidth 64 := by
  rw [positionY_eq_setWidth, positionWord_eq_append, BitVec.extractLsb'_append_eq_right]

theorem positionZ_positionWord (x y z : Word) :
    positionZ (positionWord x y z) = (z.extractLsb' 0 26).setWidth 64 := by
  rw [positionZ_eq_setWidth, positionWord_eq_append, BitVec.extractLsb'_append_eq_of_le (by rfl)]
  exact congrArg (BitVec.setWidth 64) BitVec.extractLsb'_append_eq_right

/-! ### The slices as numbers -/

/-- A slice put in front of another counts 2^n times its value. -/
theorem toNat_append_eq_add {m n : Nat} (hi : BitVec m) (lo : BitVec n) :
    (hi ++ lo).toNat = hi.toNat * 2 ^ n + lo.toNat := by
  rw [BitVec.toNat_append, ← Nat.shiftLeft_add_eq_or_of_lt lo.isLt, Nat.shiftLeft_eq]

theorem toNat_positionWord (x y z : Word) : (positionWord x y z).toNat =
    x.toNat % 2 ^ 26 * 2 ^ 38 + z.toNat % 2 ^ 26 * 2 ^ 12 + y.toNat % 2 ^ 12 := by
  rw [positionWord_eq_append, toNat_append_eq_add, toNat_append_eq_add]
  simp only [BitVec.extractLsb'_toNat, Nat.shiftRight_zero]
  omega

/-- The slice is the number modulo 2^n, as its residue nearest 0 when it is sign-extended. -/
theorem toInt_signExtend_low26 (x : Word) :
    ((x.extractLsb' 0 26).signExtend 64).toInt = signed26 (x.toInt % 2 ^ 26) := by
  rw [BitVec.toInt_signExtend_of_le (by decide), BitVec.toInt_eq_toNat_cond, BitVec.extractLsb'_toNat,
    BitVec.toInt_eq_toNat_cond, signed26, Nat.shiftRight_zero]
  omega

/-- Reading a word as signed or as unsigned changes no residue modulo a power of two up to 2^64. -/
theorem toInt_emod_two_pow (x : Word) {n : Nat} (hn : n ≤ 64) : x.toInt % 2 ^ n = x.toNat % 2 ^ n := by
  have hdvd : (2 ^ n : Int) ∣ ((2 ^ 64 : Nat) : Int) := pow_dvd_pow 2 hn
  rw [BitVec.toInt_eq_toNat_bmod, ← Int.emod_emod_of_dvd _ hdvd, Int.bmod_emod, Int.emod_emod_of_dvd _ hdvd]

theorem toInt_setWidth_low (x : Word) {n : Nat} (hn : n < 64) :
    ((x.extractLsb' 0 n).setWidth 64).toInt = x.toInt % 2 ^ n := by
  have hlt : 2 * (x.toNat % 2 ^ n) < 2 ^ 64 := by
    have hmod : x.toNat % 2 ^ n < 2 ^ n := Nat.mod_lt _ (Nat.two_pow_pos n)
    have hpow : 2 ^ n ≤ 2 ^ 63 := Nat.pow_le_pow_right (by decide) (by omega)
    omega
  have hnat : ((x.extractLsb' 0 n).setWidth 64).toNat = x.toNat % 2 ^ n := by
    rw [BitVec.toNat_setWidth_of_le (by omega), BitVec.extractLsb'_toNat, Nat.shiftRight_zero]
  rw [toInt_emod_two_pow x (by omega), BitVec.toInt_eq_toNat_of_lt (by rw [hnat]; exact hlt), hnat]
  norm_cast

theorem signed26_emod_eq_iff (i : Int) : signed26 (i % 2 ^ 26) = i ↔ -2 ^ 25 ≤ i ∧ i < 2 ^ 25 := by
  unfold signed26
  split <;> omega

/-! ### The responses -/

theorem exec_posEnc (a b c : Word) (s : State) :
    ∃ t r, exec (.posEnc a b c) s = .next t ∧ Answered s t r ∧ r.status = .ok ∧ r.r0 = positionWord a b c :=
  ⟨_, _, exec_respond _ s, answered_respond _ s, rfl, drive_r0 _ rfl⟩

theorem exec_posDec (a : Word) (s : State) :
    ∃ t r, exec (.posDec a) s = .next t ∧ Answered s t r ∧ r.status = .ok ∧
      r.r0 = positionX a ∧ r.r1 = positionY a ∧ r.r2 = positionZ a :=
  ⟨_, _, exec_respond _ s, answered_respond _ s, rfl, drive_r0 _ rfl, drive_r1 _ rfl, drive_r2 _ rfl⟩

/-- Settles O37: the word of R90 is the three slices. -/
theorem posEncPacksThreeFields : Obligations.PosEncPacksThreeFields := by
  intro a b c s
  obtain ⟨t, r, hexec, hanswered, hok, hr0⟩ := exec_posEnc a b c s
  exact ⟨t, r, hexec, hanswered, hok, hr0.trans (positionWord_eq_append a b c)⟩

/-- Settles O38: the word is made of the low slices alone. -/
theorem posEncMasksItsInputs : Obligations.PosEncMasksItsInputs := by
  intro a b c a' b' c' s s' hx hy hz
  obtain ⟨t, r, hexec, hanswered, hok, hr0⟩ := exec_posEnc a b c s
  obtain ⟨t', r', hexec', hanswered', hok', hr0'⟩ := exec_posEnc a' b' c' s'
  refine ⟨t, r, t', r', hexec, hanswered, hexec', hanswered', hok, hok', ?_, ?_⟩
  · rw [hr0, hr0', positionWord_eq_append, positionWord_eq_append, hx, hy, hz]
  · rw [hr0, toNat_positionWord]

theorem positionX_range (w : Word) : -33554432 ≤ (positionX w).toInt ∧ (positionX w).toInt ≤ 33554431 := by
  rw [positionX_eq_signExtend, BitVec.toInt_signExtend_of_le (by decide)]
  exact ⟨BitVec.le_toInt _, BitVec.toInt_le⟩

theorem toNat_setWidth_le {n : Nat} (v : BitVec n) (hn : n ≤ 64) : (v.setWidth 64).toNat ≤ 2 ^ n - 1 := by
  rw [BitVec.toNat_setWidth_of_le hn]
  exact Nat.le_pred_of_lt v.isLt

/-- Settles O39: each field is its slice, extended, so it is in the range of its width. -/
theorem posDecUnpacksThreeFields : Obligations.PosDecUnpacksThreeFields := by
  intro a s
  obtain ⟨t, r, hexec, hanswered, hok, hr0, hr1, hr2⟩ := exec_posDec a s
  obtain ⟨hlo, hhi⟩ := positionX_range a
  rw [positionY_eq_setWidth] at hr1
  rw [positionZ_eq_setWidth] at hr2
  exact ⟨t, r, hexec, hanswered, hok, hr0.trans (positionX_eq_signExtend a), hr0 ▸ hlo, hr0 ▸ hhi,
    hr1, hr1 ▸ toNat_setWidth_le _ (by decide), hr2, hr2 ▸ toNat_setWidth_le _ (by decide)⟩

/-! ### Round trips -/

/-- Decode then encode (R97). -/
theorem exec_posDec_posEnc (w : Word) (s s' : State) :
    ∃ t r t' r', exec (.posDec w) s = .next t ∧ Answered s t r ∧
      exec (.posEnc r.r0 r.r1 r.r2) s' = .next t' ∧ Answered s' t' r' ∧ r'.r0 = w := by
  obtain ⟨t, r, hexec, hanswered, -, hx, hy, hz⟩ := exec_posDec w s
  obtain ⟨t', r', hexec', hanswered', -, hr0⟩ := exec_posEnc r.r0 r.r1 r.r2 s'
  refine ⟨t, r, t', r', hexec, hanswered, hexec', hanswered', ?_⟩
  rw [hr0, hx, hy, hz, positionWord_of_fields]

/-- Encode then decode (R97): the three numbers that come back. -/
theorem exec_posEnc_posDec (x y z : Word) (s s' : State) :
    ∃ t r t' r', exec (.posEnc x y z) s = .next t ∧ Answered s t r ∧ exec (.posDec r.r0) s' = .next t' ∧
      Answered s' t' r' ∧ r'.r0.toInt = signed26 (x.toInt % 2 ^ 26) ∧ r'.r1.toInt = y.toInt % 2 ^ 12 ∧
      r'.r2.toInt = z.toInt % 2 ^ 26 := by
  obtain ⟨t, r, hexec, hanswered, -, hr0⟩ := exec_posEnc x y z s
  obtain ⟨t', r', hexec', hanswered', -, hx, hy, hz⟩ := exec_posDec r.r0 s'
  rw [hr0] at hx hy hz
  refine ⟨t, r, t', r', hexec, hanswered, hexec', hanswered', ?_, ?_, ?_⟩
  · rw [hx, positionX_positionWord, toInt_signExtend_low26]
  · rw [hy, positionY_positionWord, toInt_setWidth_low y (by decide)]
  · rw [hz, positionZ_positionWord, toInt_setWidth_low z (by decide)]

/-- A number is its own residue exactly when it is in the residues' range. -/
theorem emod_eq_self_iff {i m : Int} (hm : 0 < m) : i % m = i ↔ 0 ≤ i ∧ i < m :=
  ⟨fun h => h ▸ ⟨Int.emod_nonneg i hm.ne', Int.emod_lt_of_pos i hm⟩, fun ⟨h0, hlt⟩ => Int.emod_eq_of_lt h0 hlt⟩

/-- Settles O40: a coordinate comes back as its residue, which is the coordinate itself exactly in the residues' range. -/
theorem positionRoundTripLaws : Obligations.PositionRoundTripLaws := by
  refine ⟨exec_posDec_posEnc, fun x y z s s' => ?_⟩
  obtain ⟨t, r, t', r', hexec, hanswered, hexec', hanswered', hx, hy, hz⟩ := exec_posEnc_posDec x y z s s'
  refine ⟨t, r, t', r', hexec, hanswered, hexec', hanswered', hx, hy, hz, ?_⟩
  rw [← BitVec.toInt_inj, ← BitVec.toInt_inj, ← BitVec.toInt_inj, hx, hy, hz, signed26_emod_eq_iff,
    emod_eq_self_iff (by decide), emod_eq_self_iff (by decide), and_assoc, and_assoc]
  rfl

theorem emod_of_neg {i m : Int} (hlo : -m ≤ i) (hneg : i < 0) : i % m = i + m := by
  rw [← Int.add_emod_right, Int.emod_eq_of_lt (by omega) (by omega)]

/-- Settles O41: a negative x is in the range of signed residues; y and z come back as the non-negative ones. -/
theorem negativeCoordinatesComeBackAsymmetrically : Obligations.NegativeCoordinatesComeBackAsymmetrically := by
  intro x y z s s' hxlo hxneg hylo hyneg hzlo hzneg
  obtain ⟨t, r, t', r', hexec, hanswered, hexec', hanswered', hx, hy, hz⟩ := exec_posEnc_posDec x y z s s'
  refine ⟨t, r, t', r', hexec, hanswered, hexec', hanswered', BitVec.eq_of_toInt_eq ?_, ?_, ?_⟩
  · rw [hx, signed26_emod_eq_iff]
    omega
  · rw [hy, emod_of_neg hylo hyneg]
  · rw [hz, emod_of_neg hzlo hzneg]

end Sys2Proof.Machine
end

section
/-! PROOFS. Nothing without a request, and what an error leaves behind (60_exceptions.md R106, R108). -/

namespace Sys2Proof.Machine

/-- Settles O9: there is no request to take. -/
theorem nothingHappensWithoutARequest : Obligations.NothingHappensWithoutARequest :=
  fun _ hreq => step_idle hreq

/-- The pending responses of both states fix the one given between them. -/
theorem answered_unique {s t : State} {r r' : Response} (h : Answered s t r) (h' : Answered s t r') : r = r' := by
  obtain ⟨-, hresponses, -⟩ := h
  obtain ⟨-, hresponses', -⟩ := h'
  simpa using hresponses.symm.trans hresponses'

/-- The status a step gives is that of its request's answer, so the same in every state. -/
theorem status_of_step {s t : State} {w : RequestWord} {rest : List RequestWord} {r : Response}
    (hreq : s.requests = w :: rest) (hstep : step s = .next t) (hanswered : Answered { s with requests := rest } t r) :
    r.status = (answerOf (decode w)).status := by
  obtain rfl := Host.Outcome.next.inj ((step_respond hreq).symm.trans hstep)
  rw [answered_unique hanswered (answered_respond _ _), drive_status]

/-- From whichever draw on, the same requests get responses alike in the fields R27 defines. -/
theorem responsesTo_alike {n m k : Nat} {ws : List RequestWord} {r₁ r₂ : Response}
    (h₁ : (responsesTo n ws)[k]? = some r₁) (h₂ : (responsesTo m ws)[k]? = some r₂) :
    ∃ v, ws[k]? = some v ∧ definedPart (decode v) r₁ = definedPart (decode v) r₂ := by
  cases hv : ws[k]? with
  | none => simp [responsesTo, hv] at h₁
  | some v =>
    obtain rfl := Option.some.inj ((responsesTo_getElem? n hv).symm.trans h₁)
    obtain rfl := Option.some.inj ((responsesTo_getElem? m hv).symm.trans h₂)
    exact ⟨v, rfl, definedPart_drive_congr rfl _ _⟩

/-- Settles O13: with the failed request and without it, `n` steps answer the same first `n` later requests, from another
draw on; and the error is that of the request's answer, which every state gives. -/
theorem errorsLeaveNothingBehind : Obligations.ErrorsLeaveNothingBehind := by
  intro s t w rest r e hreq hstep hanswered herror
  refine ⟨fun later n => ?_, fun s' rest' hreq' => ?_⟩
  · refine ⟨_, _, responsesTo t.draws (later.take n), responsesTo s.draws (later.take n), run_eq_afterSteps n _,
      run_eq_afterSteps n _, rfl, rfl, rfl, by simp, fun k r₁ r₂ h₁ h₂ => ?_⟩
    obtain ⟨v, hv, halike⟩ := responsesTo_alike h₁ h₂
    rw [List.getElem?_take, Option.ite_none_right_eq_some] at hv
    obtain ⟨-, hlater⟩ := hv
    exact ⟨v, hlater, halike⟩
  · refine ⟨_, _, step_respond hreq', answered_respond _ _, ?_⟩
    rw [drive_status, ← status_of_step hreq hstep hanswered, herror]

end Sys2Proof.Machine
end

section
/-! PROOFS. Reset (70_reset_and_hazards.md R115, R117): what it leaves at the interface, and the first request after it. -/

namespace Sys2Proof.Machine

/-- Settles O18: a reset leaves both queues empty, so the first request after it is the only one in flight, and O12 compares
its response with the one the same request gets in any other state. -/
theorem resetEmptiesTheInterface : Obligations.ResetEmptiesTheInterface := by
  refine ⟨reset_requests, reset_responses, fun s s' w rest =>
    ⟨resetPort_requests s, resetPort_responses s, fun hreq' => ?_⟩⟩
  have hfirst : (s.resetPort.accept w).requests = [w] := by simp
  obtain ⟨t, r, t', r', hstep, ⟨hrequests, hresponses, -⟩, hstep', hanswered', halike⟩ :=
    responseDependsOnItsRequestAlone _ s' w [] rest hfirst hreq'
  exact ⟨t, r, t', r', hstep, hrequests, by simpa using hresponses, hstep', hanswered', halike⟩

/-- With no response pending there is none to be illegal, and none for the host's index to count. -/
theorem inv_of_no_responses {s : State} (h : s.responses = []) : s.Inv := by
  simp [State.Inv, h]

/-- Settles O17: no response is pending after reset (R115). -/
theorem resetIsLegal : Obligations.ResetIsLegal :=
  inv_of_no_responses reset_responses

end Sys2Proof.Machine
end
